-- ==== Sys2Proof/Word.lean ====
section
/-! DEFINITION. The words of the core. The width `W` is a parameter of a run (spec 00_scope.md R4), so a word
is a natural number below `2 ^ W`, as R14 writes every value; that every stored word is one is the invariant
R57, stated in Sys2Proof/Safety.lean (log entry 1). -/

namespace Sys2Proof

/-- `v` is a W-bit unsigned value (R4, R14). -/
abbrev IsWord (W v : Nat) : Prop := v < 2 ^ W

end Sys2Proof
end

