-- ==== Sys2Proof/Config.lean ====
section
/-! DEFINITION. The parameters of a run (spec 00_scope.md R4 to R11): fixed for the run, changed by no step
(10_state.md R31). They are one plain record, which State carries (log entry 2), so that the model covers
every configuration and not one. There is no free value: once the parameters are fixed every step has one
outcome (R16). -/

namespace Sys2Proof

/-- `DIALECT` (R6): it selects the set of legal opcodes and nothing else. -/
inductive Dialect where
  | v1_000
  | v2_00
  deriving DecidableEq, Repr

/-- `MEM_MODEL` (R7): flat memory, or the Harvard model with a read-only low segment. -/
inductive MemModel where
  | flat
  | hv
  deriving DecidableEq, Repr

/-- `STOREW_ADDR_MODE` (R11): whether `store.w` may take its destination from a register. -/
inductive StoreWMode where
  | literalOnly
  | operand
  deriving DecidableEq, Repr

/-- The parameters, under the spec's names. -/
structure Config where
  /-- word width in bits (R4) -/
  W : Nat
  /-- number of general registers (R5) -/
  K : Nat
  dialect : Dialect
  memModel : MemModel
  /-- `MEM_WORDS`, the number of words of data memory (R7) -/
  memWords : Nat
  /-- `RO_WORDS`, the size of the read-only segment, used only under `hv` (R7) -/
  roWords : Nat
  /-- `MEM_INIT` as (word index, word) pairs, zero elsewhere (R7, R77; log entry 7) -/
  memInit : List (Nat × Nat)
  /-- `PROG`, the instruction words from index 0 (R8); `N` is its length -/
  prog : List Nat
  tape0 : List Nat
  tape1 : List Nat
  /-- `STEP_LIMIT` (R10) -/
  stepLimit : Option Nat
  storeWMode : StoreWMode
  deriving DecidableEq, Repr

/-- The configuration of `State.reset` (DESIGN CHOICE, log entry 3): the one pairing of W and K the spec
states, W = 8 and K = 3 (R13), with the conventions of 95_test_vectors.md (V2_00, flat, no step limit,
`literal_only`, eight memory words as in its table V8), no program and empty tapes. -/
def Config.base : Config where
  W := 8
  K := 3
  dialect := .v2_00
  memModel := .flat
  memWords := 8
  roWords := 0
  memInit := []
  prog := []
  tape0 := []
  tape1 := []
  stepLimit := none
  storeWMode := .literalOnly

end Sys2Proof
end

