-- ==== Sys2Proof/Syntax.lean ====
section
/-! DEFINITION. The 22 instructions (spec 30_encoding.md R104, R105), one constructor per row of the opcode
table. Arguments stand in the order of the assembly form: destination, first source, operand A; for the two
stores the destination operand comes first and the data register second (R114). -/

namespace Sys2Proof

/-- Operand A (R102): a register (`I = 0`) or a W-bit immediate (`I = 1`). -/
inductive Operand where
  | reg (r : Nat)
  | imm (v : Nat)
  deriving DecidableEq, Repr

inductive Instr where
  | and (rd ra : Nat) (src : Operand)
  | or (rd ra : Nat) (src : Operand)
  | xor (rd ra : Nat) (src : Operand)
  | not (rd : Nat) (src : Operand)
  | add (rd ra : Nat) (src : Operand)
  | sub (rd ra : Nat) (src : Operand)
  | mull (rd ra : Nat) (src : Operand)
  | umulh (rd ra : Nat) (src : Operand)
  | umod (rd ra : Nat) (src : Operand)
  | shl (rd ra : Nat) (src : Operand)
  | shr (rd ra : Nat) (src : Operand)
  | cmpe (ra : Nat) (src : Operand)
  | cmpa (ra : Nat) (src : Operand)
  | cmpae (ra : Nat) (src : Operand)
  | mov (rd : Nat) (src : Operand)
  | jmp (target : Operand)
  | cjmp (target : Operand)
  | cnjmp (target : Operand)
  | store (dest : Operand) (rs : Nat)
  | storeW (dest : Operand) (rs : Nat)
  | read (rd : Nat) (tape : Operand)
  | answer (code : Operand)
  deriving DecidableEq, Repr

end Sys2Proof
end

