-- ==== Sys2Proof/WellFormed.lean ====
section
/-! DEFINITION. Which instructions are instructions of a configuration: the conditions of spec 30_encoding.md
R107 on the decoded form (checks 3 to 6; checks 1, 2 and the unused fields concern the word alone and are
Decode's), and that an immediate is a W-bit field (R103). -/

namespace Sys2Proof

/-- R107 check 5 and R103: a register operand is below `K`, an immediate below `2 ^ W`. -/
def Operand.wf (c : Config) : Operand → Bool
  | .reg r => decide (r < c.K)
  | .imm v => decide (IsWord c.W v)

/-- R109: `store.w` takes a register operand only under `STOREW_ADDR_MODE = operand`. -/
def Operand.storeWOk (c : Config) : Operand → Bool
  | .reg _ => decide (c.storeWMode = .operand)
  | .imm _ => true

/-- R107 checks 3, 4, 5 and 6 for each instruction: its registers are below `K` (R104), its operand A is
legal, and `cnjmp` and `store.w` stand only in `V2_00` (R108). -/
def Instr.wf (c : Config) : Instr → Bool
  | .and rd ra src | .or rd ra src | .xor rd ra src | .add rd ra src | .sub rd ra src
  | .mull rd ra src | .umulh rd ra src | .umod rd ra src | .shl rd ra src | .shr rd ra src =>
    decide (rd < c.K) && decide (ra < c.K) && src.wf c
  | .not rd src | .mov rd src | .read rd src => decide (rd < c.K) && src.wf c
  | .cmpe ra src | .cmpa ra src | .cmpae ra src => decide (ra < c.K) && src.wf c
  | .jmp src | .cjmp src | .answer src => src.wf c
  | .cnjmp src => decide (c.dialect = .v2_00) && src.wf c
  | .store src rs => decide (rs < c.K) && src.wf c
  | .storeW src rs =>
    decide (c.dialect = .v2_00) && src.storeWOk c && decide (rs < c.K) && src.wf c

end Sys2Proof
end

