-- ==== Sys2Proof/Decode.lean ====
section
/-! DEFINITION. The instruction word (spec 30_encoding.md R100 to R110): the decoder, total on every natural
number and naming the reason of each refusal, and after it the encoder. The layout is the spec's own decision
(92_eei_decisions.md D1 to D6). -/

namespace Sys2Proof

/-- Why a word is illegal: the six checks of R107, check 4 split in two. All give the same fault (R246). -/
inductive Illegal where
  /-- check 1: `z` is not 0 -/
  | reservedBits
  /-- check 2: the opcode selects no instruction (R106) -/
  | reservedOpcode
  /-- check 3: the dialect does not have the opcode (R108) -/
  | dialect
  /-- check 4: a used register field holds `K` or more -/
  | registerIndex
  /-- check 4: an unused register field is not 0 -/
  | unusedField
  /-- check 5: a register operand A has high bits set or names `K` or more -/
  | operandField
  /-- check 6: `store.w` with `I = 0` under `literal_only` (R109) -/
  | storeWRegister
  deriving DecidableEq, Repr

/-- `v[hi:lo]` (R14). -/
def bitField (v hi lo : Nat) : Nat := v / 2 ^ lo % 2 ^ (hi - lo + 1)

/-- `h = iw[W+15 : W]` (R100). -/
def headerBits (W iw : Nat) : Nat := bitField iw (W + 15) W

/-- `A = iw[W-1 : 0]` (R100). -/
def operandBits (W iw : Nat) : Nat := iw % 2 ^ W

/-- Operand A from the bit `I` and the field `A`, with check 5 of R107 (R102). -/
def decodeOperand (c : Config) (I A : Nat) : Except Illegal Operand :=
  if I = 1 then .ok (.imm A)
  else if A / 16 = 0 ∧ A % 16 < c.K then .ok (.reg (A % 16))
  else .error .operandField

/-- The class `op rD, rA, srcB`: both register fields used (R104). -/
def form3 (c : Config) (mk : Nat → Nat → Operand → Instr) (ri rj : Nat) (b : Operand) :
    Except Illegal Instr :=
  if ri < c.K ∧ rj < c.K then .ok (mk ri rj b) else .error .registerIndex

/-- The classes that use `ri` and leave `rj` zero: `not`, `mov`, `read`, `store`, `store.w` (R104). -/
def formD (c : Config) (mk : Nat → Operand → Instr) (ri rj : Nat) (b : Operand) :
    Except Illegal Instr :=
  if rj ≠ 0 then .error .unusedField
  else if ri < c.K then .ok (mk ri b) else .error .registerIndex

/-- The compares: `rj` used, `ri` zero (R104). -/
def formC (c : Config) (mk : Nat → Operand → Instr) (ri rj : Nat) (b : Operand) :
    Except Illegal Instr :=
  if ri ≠ 0 then .error .unusedField
  else if rj < c.K then .ok (mk rj b) else .error .registerIndex

/-- The jumps and `answer`: both register fields zero (R104). -/
def formJ (mk : Operand → Instr) (ri rj : Nat) (b : Operand) : Except Illegal Instr :=
  if ri ≠ 0 ∨ rj ≠ 0 then .error .unusedField else .ok (mk b)

/-- R108: an opcode that only `V2_00` has. -/
def onlyV2 (c : Config) (r : Except Illegal Instr) : Except Illegal Instr :=
  if c.dialect = .v2_00 then r else .error .dialect

/-- R109: `store.w` with a register destination needs `STOREW_ADDR_MODE = operand`. -/
def storeWForm (c : Config) (ri rj : Nat) : Operand → Except Illegal Instr
  | .imm v => formD c (fun r b => .storeW b r) ri rj (.imm v)
  | .reg r =>
    if c.storeWMode = .operand then formD c (fun r b => .storeW b r) ri rj (.reg r)
    else .error .storeWRegister

/-- The opcode map (R105); the numbers it leaves out are reserved (R106). -/
def decodeOp (c : Config) (op ri rj : Nat) (b : Operand) : Except Illegal Instr :=
  match op with
  | 0 => form3 c .and ri rj b
  | 1 => form3 c .or ri rj b
  | 2 => form3 c .xor ri rj b
  | 3 => formD c .not ri rj b
  | 4 => form3 c .add ri rj b
  | 5 => form3 c .sub ri rj b
  | 6 => form3 c .mull ri rj b
  | 7 => form3 c .umulh ri rj b
  | 10 => form3 c .umod ri rj b
  | 11 => form3 c .shl ri rj b
  | 12 => form3 c .shr ri rj b
  | 13 => formC c .cmpe ri rj b
  | 14 => formC c .cmpa ri rj b
  | 15 => formC c .cmpae ri rj b
  | 18 => formD c .mov ri rj b
  | 20 => formJ .jmp ri rj b
  | 21 => formJ .cjmp ri rj b
  | 22 => onlyV2 c (formJ .cnjmp ri rj b)
  | 24 => formD c (fun r b => .store b r) ri rj b
  | 28 => onlyV2 c (storeWForm c ri rj b)
  | 30 => formD c .read ri rj b
  | 31 => formJ .answer ri rj b
  | _ => .error .reservedOpcode

/-- The fields of a header (R101), checked and assembled (R107). -/
def decodeFields (c : Config) (h A : Nat) : Except Illegal Instr :=
  if bitField h 1 0 ≠ 0 then .error .reservedBits
  else match decodeOperand c (bitField h 10 10) A with
    | .error e => .error e
    | .ok b => decodeOp c (bitField h 15 11) (bitField h 9 6) (bitField h 5 2) b

/-- `decode(iw)` (R107): an instruction or the verdict "illegal" with its reason. -/
def decode (c : Config) (iw : Nat) : Except Illegal Instr :=
  decodeFields c (headerBits c.W iw) (operandBits c.W iw)

/-- The opcode number of each instruction (R105). -/
def opcodeOf : Instr → Nat
  | .and .. => 0
  | .or .. => 1
  | .xor .. => 2
  | .not .. => 3
  | .add .. => 4
  | .sub .. => 5
  | .mull .. => 6
  | .umulh .. => 7
  | .umod .. => 10
  | .shl .. => 11
  | .shr .. => 12
  | .cmpe .. => 13
  | .cmpa .. => 14
  | .cmpae .. => 15
  | .mov .. => 18
  | .jmp .. => 20
  | .cjmp .. => 21
  | .cnjmp .. => 22
  | .store .. => 24
  | .storeW .. => 28
  | .read .. => 30
  | .answer .. => 31

/-- The field `ri` of each instruction: its destination or data register, 0 where unused (R104). -/
def riOf : Instr → Nat
  | .and rd _ _ | .or rd _ _ | .xor rd _ _ | .add rd _ _ | .sub rd _ _ | .mull rd _ _
  | .umulh rd _ _ | .umod rd _ _ | .shl rd _ _ | .shr rd _ _ => rd
  | .not rd _ | .mov rd _ | .read rd _ => rd
  | .store _ rs | .storeW _ rs => rs
  | .cmpe _ _ | .cmpa _ _ | .cmpae _ _ | .jmp _ | .cjmp _ | .cnjmp _ | .answer _ => 0

/-- The field `rj` of each instruction: its first source register, 0 where unused (R104). -/
def rjOf : Instr → Nat
  | .and _ ra _ | .or _ ra _ | .xor _ ra _ | .add _ ra _ | .sub _ ra _ | .mull _ ra _
  | .umulh _ ra _ | .umod _ ra _ | .shl _ ra _ | .shr _ ra _ => ra
  | .cmpe ra _ | .cmpa ra _ | .cmpae ra _ => ra
  | .not _ _ | .mov _ _ | .read _ _ | .store _ _ | .storeW _ _ | .jmp _ | .cjmp _ | .cnjmp _
  | .answer _ => 0

/-- Operand A of each instruction; every instruction has one (R104). -/
def operandOf : Instr → Operand
  | .and _ _ b | .or _ _ b | .xor _ _ b | .add _ _ b | .sub _ _ b | .mull _ _ b
  | .umulh _ _ b | .umod _ _ b | .shl _ _ b | .shr _ _ b => b
  | .cmpe _ b | .cmpa _ b | .cmpae _ b | .not _ b | .mov _ b | .read _ b => b
  | .store b _ | .storeW b _ => b
  | .jmp b | .cjmp b | .cnjmp b | .answer b => b

/-- The bit `I` (R101, R102). -/
def operandI : Operand → Nat
  | .reg _ => 0
  | .imm _ => 1

/-- The field `A` (R102). -/
def operandA : Operand → Nat
  | .reg r => r
  | .imm v => v

/-- `h = op * 2048 + I * 1024 + ri * 64 + rj * 4` (R101). -/
def encodeHeader (i : Instr) : Nat :=
  opcodeOf i * 2048 + operandI (operandOf i) * 1024 + riOf i * 64 + rjOf i * 4

/-- `iw = h ∥ A` (R100). -/
def encode (c : Config) (i : Instr) : Nat :=
  encodeHeader i * 2 ^ c.W + operandA (operandOf i)

/-- The instruction word of table bits `w`: the table's first word is the 16-bit header (bit 0 its least
significant bit), and bits above it count on into operand A (DEDUCED, log entry 9). -/
def tableWord (c : Config) (nbits w : Nat) : Nat :=
  let v := w % 2 ^ nbits
  v % 2 ^ 16 * 2 ^ c.W + v / 2 ^ 16 % 2 ^ c.W

/-- The instruction read from an instruction whose table bits are `w`, in the configuration of
`State.reset` (log entry 9). -/
def decodeTableWord (nbits w : Nat) : Option Instr :=
  match decode Config.base (tableWord Config.base nbits w) with
  | .ok i => some i
  | .error _ => none

end Sys2Proof
end

