-- ==== Sys2Proof/Machine/State.lean ====
section
/-! DEFINITION. The state of the core: exactly the rows of the table of spec 10_state.md R30, and the
parameters of the run (R31) as one record no step changes. Plain data throughout. -/

namespace Sys2Proof.Machine

open Sys2Proof

/-- The fault causes of spec 60_exceptions.md R241, which `FAULT_CAUSE` records (R46).
Every one is entered as a NEXT state (`raise`, R249): the core stops by `STATUS = Faulted` and stays frozen
(R51), so no step of this model answers `Outcome.fault`. Safe: the faulting state is the spec's own. -/
inductive Fault where
  /-- raised by `umod` with divisor 0 (R242); safe -/
  | divideByZero
  /-- raised by `store` and `store.w` with a word index of `MEM_WORDS` or more (R243); safe -/
  | memOutOfBounds
  /-- raised by `store` and `store.w` into the read-only segment (R244); safe -/
  | memReadOnly
  /-- raised by the step cycle when `STEPS` has reached `STEP_LIMIT` (R245); safe -/
  | stepLimitExceeded
  /-- raised by decoding an illegal word (R246); safe -/
  | illegalInstruction
  /-- raised by the fetch when `pc >= N` (R247); safe -/
  | fetchOutOfRange
  /-- raised by `store.w` with an offset that is no multiple of `BPW` (R248); safe -/
  | misalignedStore
  deriving DecidableEq, Repr

/-- Why a step is refused. -/
inductive Refusal where
  /-- raised by an arm of `exec` whose instruction has no meaning yet; no arm does. Safe. -/
  | notModelled (mnemonic : String)
  /-- raised by `step` when the parameters break a constraint of R13: "A configuration that breaks a
  constraint is not a configuration of this hardware; the model refuses it." Safe (log entry 4). -/
  | invalidConfiguration
  deriving DecidableEq, Repr

/-- `STATUS` (R44). -/
inductive Status where
  | running
  | halted
  | faulted
  deriving DecidableEq, Repr

/-- Data memory as (word index, word) pairs: indexes strictly rising, and no word equal to what an unlisted
index reads as, which is `MEM_INIT` (R42, R77; log entry 6). -/
abbrev Memory := List (Nat × Nat)

/-- The state (R30) with the parameters (R31) beside it. -/
structure State where
  /-- the parameters, changed by no step (R31; log entry 2) -/
  cfg : Config
  /-- `x[0..K-1]` (R32) -/
  x : List Nat
  /-- the flag, `true` for 1 (R35) -/
  flag : Bool
  /-- the program counter, an index into `PROG` (R38) -/
  pc : Nat
  /-- data memory (R42) -/
  mem : Memory
  /-- `tcur[0]` (R43) -/
  tcur0 : Nat
  /-- `tcur[1]` (R43) -/
  tcur1 : Nat
  /-- `STATUS` (R44) -/
  status : Status
  /-- `HALT_CODE` (R45) -/
  haltCode : Nat
  /-- `FAULT_CAUSE`, `none` for `None` (R46) -/
  faultCause : Option Fault
  /-- `STEPS`, instructions completed since reset (R48) -/
  steps : Nat
  deriving DecidableEq, Repr

/-- The state after reset under the parameters `c` (spec 70_reset_and_hazards.md R280): nothing is listed in
memory, so `mem[i]` reads as `MEM_INIT(i)`. -/
def State.boot (c : Config) : State where
  cfg := c
  x := List.replicate c.K 0
  flag := false
  pc := 0
  mem := []
  tcur0 := 0
  tcur1 := 0
  status := .running
  haltCode := 0
  faultCause := none
  steps := 0

/-- The machine right after reset, in the configuration the model names (log entry 3). -/
def State.reset : State := State.boot Config.base

end Sys2Proof.Machine
end

