-- ==== Sys2Proof/Machine/Ops.lean ====
section
/-! DEFINITION. The named operations every meaning is built from: the derived constants of the parameters,
registers, flag, program counter, data memory, tapes, completing an instruction, entering a fault, halting,
and the reset input. -/

namespace Sys2Proof.Machine

open Sys2Proof

/-! ### Constants derived from the parameters -/

/-- `BPW = ceil(W / 8)`, the byte offsets one word takes under `store.w` (R12, R73). -/
def bytesPerWord (c : Config) : Nat := (c.W + 7) / 8

/-- `RO_WORDS`, taken as 0 under `flat` (R7). -/
def roLimit (c : Config) : Nat :=
  match c.memModel with
  | .flat => 0
  | .hv => c.roWords

/-- The word listed for index `i`, the first one if there are several. -/
def lookup (i : Nat) : List (Nat × Nat) → Option Nat
  | [] => none
  | (j, w) :: t => if i = j then some w else lookup i t

/-- `MEM_INIT(i)`: zero where no pair gives a word (R7, R77). -/
def initWord (c : Config) (i : Nat) : Nat := (lookup i c.memInit).getD 0

/-- The constraints between the parameters (R7, R8, R13, R100). -/
def configOk (c : Config) : Bool :=
  decide (4 ≤ c.W) && decide (1 ≤ c.K) && decide (c.K ≤ 16) &&
  decide (c.prog.length ≤ 2 ^ c.W) && decide (c.memWords ≤ 2 ^ c.W) &&
  decide (roLimit c ≤ c.memWords) &&
  c.prog.all (fun iw => decide (iw < 2 ^ (16 + c.W))) &&
  c.tape0.all (fun w => decide (IsWord c.W w)) &&
  c.tape1.all (fun w => decide (IsWord c.W w)) &&
  c.memInit.all (fun p => decide (p.1 < c.memWords) && decide (IsWord c.W p.2))

/-! ### Registers, flag, program counter -/

/-- `x[i]` (R15); every register holds a value from reset on (R34). -/
def State.readReg (s : State) (i : Nat) : Nat := s.x.getD i 0

/-- `x[i] <- v` (R15). -/
def State.writeReg (s : State) (i : Nat) (v : Nat) : State := { s with x := s.x.set i v }

/-- `flag <- f` (R15). -/
def State.setFlag (s : State) (f : Bool) : State := { s with flag := f }

/-- The sequential candidate `(pc + 1) mod 2^W` (R40, R200). -/
def seqPc (s : State) : Nat := (s.pc + 1) % 2 ^ s.cfg.W

/-- Completing an instruction: `pc <- npc; STEPS <- STEPS + 1` (R50). -/
def State.complete (s : State) (npc : Nat) : State := { s with pc := npc, steps := s.steps + 1 }

/-- Completing with the sequential program counter (R40). -/
def State.advance (s : State) : State := s.complete (seqPc s)

/-! ### Data memory -/

/-- The word at index `i` of memory `m` (R42): `MEM_INIT(i)` unless listed. -/
def memRead (c : Config) (m : Memory) (i : Nat) : Nat := (lookup i m).getD (initWord c i)

/-- Put the pair of index `i` in its place by rising index. -/
def insertCell (i : Nat) (v : Nat) : Memory → Memory
  | [] => [(i, v)]
  | (j, w) :: t => if i < j then (i, v) :: (j, w) :: t else (j, w) :: insertCell i v t

/-- `MemWrite(i, 1, v)` on the list (R15, R78): the old pair goes, and the new one is listed unless it is
what an unlisted index reads as, so that equal memories are equal lists. -/
def memWrite (c : Config) (m : Memory) (i : Nat) (v : Nat) : Memory :=
  let rest := m.filter (fun p => decide (p.1 ≠ i))
  if v = initWord c i then rest else insertCell i v rest

/-- Indexes strictly rise. -/
def risingFrom : Memory → Bool
  | [] => true
  | [_] => true
  | (i, _) :: (j, w) :: t => decide (i < j) && risingFrom ((j, w) :: t)

/-- The canonical form: rising indexes, and no word equal to what an unlisted index reads as. -/
def Memory.wf (c : Config) (m : Memory) : Bool :=
  risingFrom m && m.all (fun p => decide (p.2 ≠ initWord c p.1))

/-- `mem[i]` of a state. -/
def State.readMem (s : State) (i : Nat) : Nat := memRead s.cfg s.mem i

/-- `mem[i] <- v` of a state. -/
def State.writeMem (s : State) (i : Nat) (v : Nat) : State :=
  { s with mem := memWrite s.cfg s.mem i v }

/-! ### Tapes (R211) -/

/-- The contents of tape `t`; an index of 2 or more names no tape, which reads as an empty one (R210). -/
def tapeOf (c : Config) (t : Nat) : List Nat :=
  match t with
  | 0 => c.tape0
  | 1 => c.tape1
  | _ => []

/-- `tcur[t]`. -/
def State.cursor (s : State) (t : Nat) : Nat :=
  match t with
  | 0 => s.tcur0
  | 1 => s.tcur1
  | _ => 0

/-- The next unread word of tape `t`; `none` when `TapeHas(t)` is false (R55, R211). -/
def State.tapeHead (s : State) (t : Nat) : Option Nat := (tapeOf s.cfg t)[s.cursor t]?

/-- `tcur[t] <- tcur[t] + 1` (R211). -/
def State.bumpCursor (s : State) (t : Nat) : State :=
  match t with
  | 0 => { s with tcur0 := s.tcur0 + 1 }
  | 1 => { s with tcur1 := s.tcur1 + 1 }
  | _ => s

/-! ### The ways a step ends -/

/-- Fault entry (R249): `STATUS <- Faulted; FAULT_CAUSE <- cause`, and nothing else changes. -/
def State.enterFault (s : State) (f : Fault) : State :=
  { s with status := .faulted, faultCause := some f }

/-- `raise <Fault>` (R15, R249): taking a fault is a next state. There is no return from one (R252). -/
def raise (f : Fault) (s : State) : Host.Outcome State Fault Refusal := .next (s.enterFault f)

/-- `halt(code)` (R230): `pc` stays, the instruction counts as completed. -/
def State.halt (s : State) (code : Nat) : State :=
  { s with haltCode := code, status := .halted, steps := s.steps + 1 }

/-- Write back a result and its flag and go on (R50, R56). -/
def writeBack (s : State) (rd : Nat) (v : Nat) (f : Bool) : Host.Outcome State Fault Refusal :=
  .next ((s.writeReg rd v).setFlag f).advance

/-- The two checks a store makes on its word index and the write (R75, R76, R220, R222). -/
def storeWord (s : State) (widx : Nat) (v : Nat) : Host.Outcome State Fault Refusal :=
  if s.cfg.memWords ≤ widx then raise .memOutOfBounds s
  else if widx < roLimit s.cfg then raise .memReadOnly s
  else .next (s.writeMem widx v).advance

/-- The `reset` input (R52, R280): the parameters stay, everything else takes its reset value. -/
def State.resetPin (s : State) : State := State.boot s.cfg

end Sys2Proof.Machine
end

