-- ==== Sys2Proof/Machine/Alu.lean ====
section
/-! DEFINITION. The word each ALU instruction computes (spec 41_arith.md, 42_shift.md, 43_logic.md): exact
functions on natural numbers, narrowed at the end (R150). -/

namespace Sys2Proof.Machine

open Sys2Proof

/-- R151. -/
def addWord (W : Nat) (a b : Nat) : Nat := (a + b) % 2 ^ W

/-- R152. -/
def subWord (W : Nat) (a b : Nat) : Nat := (a + 2 ^ W - b) % 2 ^ W

/-- The low word of the product (R153). -/
def mullWord (W : Nat) (a b : Nat) : Nat := a * b % 2 ^ W

/-- The high word of the product (R154). -/
def umulhWord (W : Nat) (a b : Nat) : Nat := a * b / 2 ^ W

/-- R155, for a divisor other than 0. -/
def umodWord (a b : Nat) : Nat := a % b

/-- Logical shift right by the whole value `n`, 0 when `n >= W` (R171). -/
def shrWord (W : Nat) (a n : Nat) : Nat := if W ≤ n then 0 else a / 2 ^ n

/-- Logical shift left by the whole value `n`, 0 when `n >= W` (R172). -/
def shlWord (W : Nat) (a n : Nat) : Nat := if W ≤ n then 0 else a * 2 ^ n % 2 ^ W

/-- R180. -/
def xorWord (a b : Nat) : Nat := a ^^^ b

/-- R181. -/
def andWord (a b : Nat) : Nat := a &&& b

/-- R182. -/
def orWord (a b : Nat) : Nat := a ||| b

/-- `MASK - b` (R183). -/
def notWord (W : Nat) (b : Nat) : Nat := 2 ^ W - 1 - b

end Sys2Proof.Machine
end

