-- ==== Sys2Proof/Machine/Flags.lean ====
section
/-! DEFINITION. The flag each instruction derives (spec 10_state.md R36) from its two operand values. -/

namespace Sys2Proof.Machine

open Sys2Proof

/-- The carry out of the W-bit sum (R151). -/
def addFlag (W : Nat) (a b : Nat) : Bool := decide (2 ^ W ≤ a + b)

/-- The borrow (R152, decision D7). -/
def subFlag (a b : Nat) : Bool := decide (a < b)

/-- The product does not fit W bits: `mull` and `umulh` alike (R153, R154, decisions D8, D9). -/
def mulFlag (W : Nat) (a b : Nat) : Bool := decide (2 ^ W ≤ a * b)

/-- The last bit out of a right shift by `n`: `a[n-1]` for `1 <= n <= W`, else 0 (R171, decision D12). -/
def shrFlag (W : Nat) (a n : Nat) : Bool :=
  if 1 ≤ n ∧ n ≤ W then decide (bitField a (n - 1) (n - 1) = 1) else false

/-- The last bit out of a left shift by `n`: `a[W-n]` for `1 <= n <= W`, else 0 (R172, decision D12). -/
def shlFlag (W : Nat) (a n : Nat) : Bool :=
  if 1 ≤ n ∧ n ≤ W then decide (bitField a (W - n) (W - n) = 1) else false

end Sys2Proof.Machine
end

