-- ==== Sys2Proof/Machine/Operands.lean ====
section
/-! DEFINITION. The operand forms: operand A is a register or an immediate in every instruction (spec
30_encoding.md R102, R103, R104). -/

namespace Sys2Proof.Machine

open Sys2Proof

/-- `b`, the value of operand A at the start of the step (R102): the register's value, or the immediate as
it stands. -/
def operandValue (s : State) : Operand → Nat
  | .reg r => s.readReg r
  | .imm v => v

/-- The word index a byte offset names, `b div BPW` (R73). -/
def byteOffsetIndex (c : Config) (b : Nat) : Nat := b / bytesPerWord c

/-- `b mod BPW = 0` (R74). -/
def byteOffsetAligned (c : Config) (b : Nat) : Bool := decide (b % bytesPerWord c = 0)

end Sys2Proof.Machine
end

