-- ==== Sys2Proof/Machine/Arith.lean ====
section
/-! DEFINITION. The arithmetic instructions (spec 41_arith.md). -/

namespace Sys2Proof.Machine

open Sys2Proof

/-- `add rD, rA, srcB` (R151). -/
def execAdd (rd ra : Nat) (src : Operand) (s : State) : Host.Outcome State Fault Refusal :=
  let a := s.readReg ra
  let b := operandValue s src
  writeBack s rd (addWord s.cfg.W a b) (addFlag s.cfg.W a b)

/-- `sub rD, rA, srcB` (R152). -/
def execSub (rd ra : Nat) (src : Operand) (s : State) : Host.Outcome State Fault Refusal :=
  let a := s.readReg ra
  let b := operandValue s src
  writeBack s rd (subWord s.cfg.W a b) (subFlag a b)

/-- `mull rD, rA, srcB` (R153). -/
def execMull (rd ra : Nat) (src : Operand) (s : State) : Host.Outcome State Fault Refusal :=
  let a := s.readReg ra
  let b := operandValue s src
  writeBack s rd (mullWord s.cfg.W a b) (mulFlag s.cfg.W a b)

/-- `umulh rD, rA, srcB` (R154). -/
def execUmulh (rd ra : Nat) (src : Operand) (s : State) : Host.Outcome State Fault Refusal :=
  let a := s.readReg ra
  let b := operandValue s src
  writeBack s rd (umulhWord s.cfg.W a b) (mulFlag s.cfg.W a b)

/-- `umod rD, rA, srcB` (R155): a zero divisor takes the fault DivideByZero (R242); the flag is cleared when
the instruction completes (decision D10). -/
def execUmod (rd ra : Nat) (src : Operand) (s : State) : Host.Outcome State Fault Refusal :=
  let b := operandValue s src
  if b = 0 then raise .divideByZero s
  else writeBack s rd (umodWord (s.readReg ra) b) false

end Sys2Proof.Machine
end

