-- ==== Sys2Proof/Machine/Compare.lean ====
section
/-! DEFINITION. The compare instructions (spec 44_compare.md): the flag, and no register. -/

namespace Sys2Proof.Machine

open Sys2Proof

/-- `cmpe rA, srcB` (R190). -/
def execCmpe (ra : Nat) (src : Operand) (s : State) : Host.Outcome State Fault Refusal :=
  .next (s.setFlag (decide (s.readReg ra = operandValue s src))).advance

/-- `cmpa rA, srcB` (R191), unsigned. -/
def execCmpa (ra : Nat) (src : Operand) (s : State) : Host.Outcome State Fault Refusal :=
  .next (s.setFlag (decide (s.readReg ra > operandValue s src))).advance

/-- `cmpae rA, srcB` (R192), unsigned. -/
def execCmpae (ra : Nat) (src : Operand) (s : State) : Host.Outcome State Fault Refusal :=
  .next (s.setFlag (decide (s.readReg ra ≥ operandValue s src))).advance

end Sys2Proof.Machine
end

