-- ==== Sys2Proof/Machine/Halt.lean ====
section
/-! DEFINITION. Halting (spec 48_answer.md). -/

namespace Sys2Proof.Machine

open Sys2Proof

/-- `answer code` (R230). -/
def execAnswer (code : Operand) (s : State) : Host.Outcome State Fault Refusal :=
  .next (s.halt (operandValue s code))

end Sys2Proof.Machine
end

