-- ==== Sys2Proof/Machine/Jump.lean ====
section
/-! DEFINITION. Control transfer (spec 45_jumps.md): the program-counter multiplexer (R200); targets are absolute indexes. -/

namespace Sys2Proof.Machine

open Sys2Proof

/-- `jmp target` (R201). -/
def execJmp (target : Operand) (s : State) : Host.Outcome State Fault Refusal :=
  .next (s.complete (operandValue s target))

/-- `cjmp target` (R202): taken when the flag is set. -/
def execCjmp (target : Operand) (s : State) : Host.Outcome State Fault Refusal :=
  .next (s.complete (if s.flag = true then operandValue s target else seqPc s))

/-- `cnjmp target` (R203): taken when the flag is clear. -/
def execCnjmp (target : Operand) (s : State) : Host.Outcome State Fault Refusal :=
  .next (s.complete (if s.flag = false then operandValue s target else seqPc s))

end Sys2Proof.Machine
end

