-- ==== Sys2Proof/Machine/Logic.lean ====
section
/-! DEFINITION. The bitwise instructions (spec 43_logic.md). -/

namespace Sys2Proof.Machine

open Sys2Proof

/-- `and rD, rA, srcB` (R181): the flag is cleared (decision D11). -/
def execAnd (rd ra : Nat) (src : Operand) (s : State) : Host.Outcome State Fault Refusal :=
  writeBack s rd (andWord (s.readReg ra) (operandValue s src)) false

/-- `or rD, rA, srcB` (R182): the flag is cleared (decision D11). -/
def execOr (rd ra : Nat) (src : Operand) (s : State) : Host.Outcome State Fault Refusal :=
  writeBack s rd (orWord (s.readReg ra) (operandValue s src)) false

/-- `xor rD, rA, srcB` (R180): the flag is cleared. -/
def execXor (rd ra : Nat) (src : Operand) (s : State) : Host.Outcome State Fault Refusal :=
  writeBack s rd (xorWord (s.readReg ra) (operandValue s src)) false

/-- `not rD, srcB` (R183): unary on operand A; the flag is cleared (decision D11). -/
def execNot (rd : Nat) (src : Operand) (s : State) : Host.Outcome State Fault Refusal :=
  writeBack s rd (notWord s.cfg.W (operandValue s src)) false

end Sys2Proof.Machine
end

