-- ==== Sys2Proof/Machine/Move.lean ====
section
/-! DEFINITION. The move instruction (spec 40_mov.md). -/

namespace Sys2Proof.Machine

open Sys2Proof

/-- `mov rD, src` (R140): the flag is unaffected. -/
def execMov (rd : Nat) (src : Operand) (s : State) : Host.Outcome State Fault Refusal :=
  .next (s.writeReg rd (operandValue s src)).advance

end Sys2Proof.Machine
end

