-- ==== Sys2Proof/Machine/Shift.lean ====
section
/-! DEFINITION. The shift instructions (spec 42_shift.md); the amount is the whole value of operand A (R170). -/

namespace Sys2Proof.Machine

open Sys2Proof

/-- `shl rD, rA, srcB` (R172). -/
def execShl (rd ra : Nat) (src : Operand) (s : State) : Host.Outcome State Fault Refusal :=
  let a := s.readReg ra
  let n := operandValue s src
  writeBack s rd (shlWord s.cfg.W a n) (shlFlag s.cfg.W a n)

/-- `shr rD, rA, srcB` (R171). -/
def execShr (rd ra : Nat) (src : Operand) (s : State) : Host.Outcome State Fault Refusal :=
  let a := s.readReg ra
  let n := operandValue s src
  writeBack s rd (shrWord s.cfg.W a n) (shrFlag s.cfg.W a n)

end Sys2Proof.Machine
end

