-- ==== Sys2Proof/Machine/Store.lean ====
section
/-! DEFINITION. The stores (spec 47_store.md, 20_memory.md R72 to R76). -/

namespace Sys2Proof.Machine

open Sys2Proof

/-- `store dest, rSrc` (R220): operand A is the word index (R72). -/
def execStore (dest : Operand) (rs : Nat) (s : State) : Host.Outcome State Fault Refusal :=
  storeWord s (operandValue s dest) (s.readReg rs)

/-- `store.w dest, rSrc` (R221): operand A is a byte offset; a misaligned one faults before the checks of
the word index (R251). -/
def execStoreW (dest : Operand) (rs : Nat) (s : State) : Host.Outcome State Fault Refusal :=
  let b := operandValue s dest
  if byteOffsetAligned s.cfg b then storeWord s (byteOffsetIndex s.cfg b) (s.readReg rs)
  else raise .misalignedStore s

end Sys2Proof.Machine
end

