-- ==== Sys2Proof/Machine/Tape.lean ====
section
/-! DEFINITION. Tape input (spec 46_read.md). -/

namespace Sys2Proof.Machine

open Sys2Proof

/-- `read rD, tapeIndex` (R210): the next word with the flag clear, or 0 with the flag set at the end of the
tape and for an index that names no tape (decision D16). The old value of a register operand selects the
tape (R47). -/
def execRead (rd : Nat) (tape : Operand) (s : State) : Host.Outcome State Fault Refusal :=
  let t := operandValue s tape
  match s.tapeHead t with
  | some w => writeBack (s.bumpCursor t) rd w false
  | none => writeBack s rd 0 true

end Sys2Proof.Machine
end

