-- ==== Sys2Proof/Machine/Dispatch.lean ====
section
/-! DEFINITION. One arm per instruction: a direct call of its meaning. -/

namespace Sys2Proof.Machine

open Sys2Proof

def exec (i : Instr) (s : State) : Host.Outcome State Fault Refusal :=
  match i with
  | .and rd ra src => Sys2Proof.Machine.execAnd rd ra src s
  | .or rd ra src => Sys2Proof.Machine.execOr rd ra src s
  | .xor rd ra src => Sys2Proof.Machine.execXor rd ra src s
  | .not rd src => Sys2Proof.Machine.execNot rd src s
  | .add rd ra src => Sys2Proof.Machine.execAdd rd ra src s
  | .sub rd ra src => Sys2Proof.Machine.execSub rd ra src s
  | .mull rd ra src => Sys2Proof.Machine.execMull rd ra src s
  | .umulh rd ra src => Sys2Proof.Machine.execUmulh rd ra src s
  | .umod rd ra src => Sys2Proof.Machine.execUmod rd ra src s
  | .shl rd ra src => Sys2Proof.Machine.execShl rd ra src s
  | .shr rd ra src => Sys2Proof.Machine.execShr rd ra src s
  | .cmpe ra src => Sys2Proof.Machine.execCmpe ra src s
  | .cmpa ra src => Sys2Proof.Machine.execCmpa ra src s
  | .cmpae ra src => Sys2Proof.Machine.execCmpae ra src s
  | .mov rd src => Sys2Proof.Machine.execMov rd src s
  | .jmp target => Sys2Proof.Machine.execJmp target s
  | .cjmp target => Sys2Proof.Machine.execCjmp target s
  | .cnjmp target => Sys2Proof.Machine.execCnjmp target s
  | .store dest rs => Sys2Proof.Machine.execStore dest rs s
  | .storeW dest rs => Sys2Proof.Machine.execStoreW dest rs s
  | .read rd tape => Sys2Proof.Machine.execRead rd tape s
  | .answer code => Sys2Proof.Machine.execAnswer code s

end Sys2Proof.Machine
end

