-- ==== Sys2Proof/Machine/Fetch.lean ====
section
/-! DEFINITION. The part of a step before the instruction executes (spec 10_state.md R50): the step limit,
the fetch of `PROG[pc]`, decoding, in that order of priority (60_exceptions.md R251), and placing an
instruction word where the next step fetches. -/

namespace Sys2Proof.Machine

open Sys2Proof

/-- `STEP_LIMIT = L and STEPS >= L` (R245). -/
def stepLimitReached (s : State) : Bool :=
  match s.cfg.stepLimit with
  | none => false
  | some l => decide (l ≤ s.steps)

/-- `PROG[pc]`; `none` when `pc >= N` (R53, R82, R247). -/
def fetchWord (s : State) : Option Nat := s.cfg.prog[s.pc]?

/-- The instruction of this step, or the fault that ends it before it executes. -/
def fetchDecode (s : State) : Except Fault Instr :=
  if stepLimitReached s then .error .stepLimitExceeded
  else match fetchWord s with
    | none => .error .fetchOutOfRange
    | some iw =>
      match decode s.cfg iw with
      | .error _ => .error .illegalInstruction
      | .ok i => .ok i

/-- `PROG` with `iw` at index `k`; where the program is too short it grows by all-zero words, which are
`and r0, r0, r0` (R181; log entry 8). -/
def placeWord (prog : List Nat) (k iw : Nat) : List Nat :=
  prog.take k ++ List.replicate (k - prog.length) 0 ++ iw :: prog.drop (k + 1)

/-- The state whose program has `iw` at the index the next step fetches; nothing else changes. -/
def withWordAtPc (s : State) (iw : Nat) : State :=
  { s with cfg := { s.cfg with prog := placeWord s.cfg.prog s.pc iw } }

end Sys2Proof.Machine
end

