-- ==== Sys2Proof/Machine/Step.lean ====
section
/-! DEFINITION. One step of the core (spec 10_state.md R50). -/

namespace Sys2Proof.Machine

open Sys2Proof

/-- `Step()` (R50). A configuration outside R13 is refused; a core that is not running takes no step (R51);
a fault before execution is entered like any other (R249). -/
def step (s : State) : Host.Outcome State Fault Refusal :=
  if configOk s.cfg = false then .refused .invalidConfiguration
  else match s.status with
    | .halted => .next s
    | .faulted => .next s
    | .running =>
      match fetchDecode s with
      | .error f => raise f s
      | .ok i => exec i s

/-- `s` with the instruction of table bits `w` at the index the next step fetches (log entries 8 and 9). -/
def State.withFetchWord (s : State) (nbits w : Nat) : State :=
  withWordAtPc s (tableWord s.cfg nbits w)

end Sys2Proof.Machine
end

