-- ==== Sys2Proof/Machine/Assembly.lean ====
section
/-! DEFINITION. The assembly form of one instruction (spec 30_encoding.md R113 to R115): the mnemonic and its
operand tokens in source order. The assembler as a tool (lines, comments, labels) is out of scope (R3). -/

namespace Sys2Proof.Machine

open Sys2Proof

/-- An operand token (R113): `r<N>`, or a bare number, which a resolved label is too. -/
inductive Token where
  | reg (n : Nat)
  | num (v : Nat)
  deriving DecidableEq, Repr

/-- A token in an operand-A position (R113). -/
def tokenOperand : Token → Operand
  | .reg n => .reg n
  | .num v => .imm v

/-- Operand A as a token (R113). -/
def operandToken : Operand → Token
  | .reg n => .reg n
  | .imm v => .num v

/-- `op rD, rA, srcB` (R114). -/
def read3 (mk : Nat → Nat → Operand → Instr) : List Token → Option Instr
  | [.reg d, .reg a, t] => some (mk d a (tokenOperand t))
  | _ => none

/-- `op rD, src` and `op rA, srcB` (R114). -/
def read2 (mk : Nat → Operand → Instr) : List Token → Option Instr
  | [.reg d, t] => some (mk d (tokenOperand t))
  | _ => none

/-- `op dest, rSrc` (R114): the destination comes first. -/
def readStore (mk : Operand → Nat → Instr) : List Token → Option Instr
  | [t, .reg r] => some (mk (tokenOperand t) r)
  | _ => none

/-- `op target` (R114). -/
def read1 (mk : Operand → Instr) : List Token → Option Instr
  | [t] => some (mk (tokenOperand t))
  | _ => none

/-- The mnemonic of each instruction (R105, R115). -/
def mnemonicOf : Instr → String
  | .and .. => "and"
  | .or .. => "or"
  | .xor .. => "xor"
  | .not .. => "not"
  | .add .. => "add"
  | .sub .. => "sub"
  | .mull .. => "mull"
  | .umulh .. => "umulh"
  | .umod .. => "umod"
  | .shl .. => "shl"
  | .shr .. => "shr"
  | .cmpe .. => "cmpe"
  | .cmpa .. => "cmpa"
  | .cmpae .. => "cmpae"
  | .mov .. => "mov"
  | .jmp .. => "jmp"
  | .cjmp .. => "cjmp"
  | .cnjmp .. => "cnjmp"
  | .store .. => "store"
  | .storeW .. => "store.w"
  | .read .. => "read"
  | .answer .. => "answer"

/-- The operand tokens of each instruction in source order (R104, R114). -/
def tokensOf : Instr → List Token
  | .and d a b | .or d a b | .xor d a b | .add d a b | .sub d a b | .mull d a b | .umulh d a b
  | .umod d a b | .shl d a b | .shr d a b => [.reg d, .reg a, operandToken b]
  | .not d b | .mov d b | .read d b => [.reg d, operandToken b]
  | .cmpe a b | .cmpa a b | .cmpae a b => [.reg a, operandToken b]
  | .store b r | .storeW b r => [operandToken b, .reg r]
  | .jmp b | .cjmp b | .cnjmp b | .answer b => [operandToken b]

/-- The instruction a mnemonic and its tokens stand for; `none` where the mnemonic is none of the 22 (R115)
or the tokens are not of its form. -/
def readAssembly (m : String) (ts : List Token) : Option Instr :=
  match m with
  | "and" => read3 .and ts
  | "or" => read3 .or ts
  | "xor" => read3 .xor ts
  | "not" => read2 .not ts
  | "add" => read3 .add ts
  | "sub" => read3 .sub ts
  | "mull" => read3 .mull ts
  | "umulh" => read3 .umulh ts
  | "umod" => read3 .umod ts
  | "shl" => read3 .shl ts
  | "shr" => read3 .shr ts
  | "cmpe" => read2 .cmpe ts
  | "cmpa" => read2 .cmpa ts
  | "cmpae" => read2 .cmpae ts
  | "mov" => read2 .mov ts
  | "jmp" => read1 .jmp ts
  | "cjmp" => read1 .cjmp ts
  | "cnjmp" => read1 .cnjmp ts
  | "store" => readStore .store ts
  | "store.w" => readStore .storeW ts
  | "read" => read2 .read ts
  | "answer" => read1 .answer ts
  | _ => none

end Sys2Proof.Machine
end

