-- ==== Sys2Proof/Machine/Inspect.lean ====
section
/-! DEFINITION. What crosses the core's interfaces (spec 10_state.md R44, R46, R52 to R55; 60_exceptions.md
R240, R241): the status encodings, the RAM write port, the host's reads and the result of a run, and the
identity of a configured instance (00_scope.md R1). The fetch interface (R53) is `fetchWord`, the tape
interface (R55) `State.tapeHead`. -/

namespace Sys2Proof.Machine

open Sys2Proof

/-- The encoding of `STATUS` (R44). -/
def statusCode : Status → Nat
  | .running => 0
  | .halted => 1
  | .faulted => 2

/-- The encoding of `FAULT_CAUSE` (R46, R241). -/
def faultCode : Option Fault → Nat
  | none => 0
  | some .divideByZero => 1
  | some .memOutOfBounds => 2
  | some .memReadOnly => 3
  | some .stepLimitExceeded => 4
  | some .illegalInstruction => 5
  | some .fetchOutOfRange => 6
  | some .misalignedStore => 7

/-- A write that passes the bounds and read-only checks (R54, R75, R76). -/
def checkedWrite (s : State) (widx : Nat) (v : Nat) : Option (Nat × Nat) :=
  if widx < s.cfg.memWords ∧ ¬ widx < roLimit s.cfg then some (widx, v) else none

/-- The word index and data an instruction puts on the RAM write port: a store that passes every check
(R54, R220, R221), and nothing for any other instruction. -/
def storePort (s : State) : Instr → Option (Nat × Nat)
  | .store dest rs => checkedWrite s (operandValue s dest) (s.readReg rs)
  | .storeW dest rs =>
    if byteOffsetAligned s.cfg (operandValue s dest) then
      checkedWrite s (byteOffsetIndex s.cfg (operandValue s dest)) (s.readReg rs)
    else none
  | .and .. | .or .. | .xor .. | .not .. | .add .. | .sub .. | .mull .. | .umulh .. | .umod ..
  | .shl .. | .shr .. | .cmpe .. | .cmpa .. | .cmpae .. | .mov .. | .jmp .. | .cjmp .. | .cnjmp ..
  | .read .. | .answer .. => none

/-- The RAM write port in the step from `s` (R54): idle unless the core runs and executes a store that passes
every check. -/
def ramWritePort (s : State) : Option (Nat × Nat) :=
  match s.status, fetchDecode s with
  | .running, .ok i => storePort s i
  | _, _ => none

/-- `MemRead(addr, n)` (R15, R80): the host's read of `n` words once the core has stopped (R54, R83); `none`
before that, and where a word does not exist. -/
def hostMemRead (s : State) (addr n : Nat) : Option (List Nat) :=
  if s.status ≠ .running ∧ addr + n ≤ s.cfg.memWords then some ((List.range n).map fun k => s.readMem (addr + k)) else none

/-- How a run ended (R240): by `answer` with its code, or by a fault with its cause. -/
inductive RunEnd where
  | normalHalt (code : Nat)
  | runtimeFault (cause : Fault)
  deriving DecidableEq, Repr

/-- The observable result of a run (R54). -/
structure RunResult where
  ended : RunEnd
  registers : List Nat
  memory : List Nat
  stepCount : Nat
  deriving DecidableEq, Repr

/-- How the run ended, `none` while it has not; a halt code is read only off a halted core and a cause only
off a faulted one (R45, R46). -/
def runEnd (s : State) : Option RunEnd :=
  match s.status, s.faultCause with
  | .running, _ => none
  | .halted, _ => some (.normalHalt s.haltCode)
  | .faulted, some f => some (.runtimeFault f)
  | .faulted, none => none

/-- The result the host reads once `STATUS != Running` (R54): final memory is `mem[0 .. MEM_WORDS-1]`. -/
def runResult (s : State) : Option RunResult :=
  match runEnd s, hostMemRead s 0 s.cfg.memWords with
  | some e, some m => some { ended := e, registers := s.x, memory := m, stepCount := s.steps }
  | _, _ => none

/-- The version in the directive line (R1, R6). -/
def versionName : Dialect → String
  | .v1_000 => "1.000"
  | .v2_00 => "2.00"

/-- The memory-model marker in the directive line, absent for the flat model (R1). -/
def memModelName : MemModel → String
  | .flat => ""
  | .hv => "M=hv "

/-- The identity string of a configured instance: the directive line (R1). -/
def identity (c : Config) : String :=
  "; TinyRAM V=" ++ versionName c.dialect ++ " " ++ memModelName c.memModel ++ "W=" ++ toString c.W
    ++ " K=" ++ toString c.K

end Sys2Proof.Machine
end

