-- ==== Sys2Proof/Safety.lean ====
section
/-! DEFINITION. The terms the statements are written in: the invariant of spec 10_state.md R57, what it is for
an instruction to be ready to run, what each shape of instruction leaves behind, and the instruction word and
its legality written straight from 30_encoding.md R101, R104 and R107. -/

namespace Sys2Proof.Machine

open Sys2Proof

/-- The register file has its shape (R32): `K` registers, each below `2 ^ W`. -/
def State.regsOk (s : State) : Bool :=
  decide (s.x.length = s.cfg.K) && s.x.all (fun v => decide (IsWord s.cfg.W v))

/-- What holds in every reachable state: R57, with the shape of the register file (R32), the canonical form of
memory, the untouched read-only segment (R76) and the step limit (R245). -/
structure State.Inv (s : State) : Prop where
  /-- the parameters obey R13 -/
  cfgOk : configOk s.cfg = true
  regs : s.regsOk = true
  pcFits : IsWord s.cfg.W s.pc
  haltCodeFits : IsWord s.cfg.W s.haltCode
  memCanonical : Memory.wf s.cfg s.mem = true
  /-- every listed word exists and is a W-bit word -/
  memFits : ∀ p ∈ s.mem, p.1 < s.cfg.memWords ∧ IsWord s.cfg.W p.2
  /-- no word of the read-only segment is listed: it holds what it held at reset -/
  memWritable : ∀ p ∈ s.mem, roLimit s.cfg ≤ p.1
  tape0Bound : s.tcur0 ≤ s.cfg.tape0.length
  tape1Bound : s.tcur1 ≤ s.cfg.tape1.length
  runningClean : s.status = .running → s.faultCause = none ∧ s.haltCode = 0
  haltedClean : s.status = .halted → s.faultCause = none
  faultedCause : s.status = .faulted → s.faultCause ≠ none ∧ s.haltCode = 0
  withinLimit : ∀ l, s.cfg.stepLimit = some l → s.steps ≤ l

/-- Instruction `i` can run in `s`: the parameters obey R13, the register file has its shape, and `i` is an
instruction of the configuration (R107). -/
abbrev Ready (s : State) (i : Instr) : Prop :=
  configOk s.cfg = true ∧ s.regsOk = true ∧ i.wf s.cfg = true

/-- The instruction word with opcode `op`, register fields `ri`, `rj` and operand A `src` (R100, R101). -/
def wordOf (c : Config) (op ri rj : Nat) (src : Operand) : Nat :=
  match src with
  | .reg r => (op * 2048 + ri * 64 + rj * 4) * 2 ^ c.W + r
  | .imm v => (op * 2048 + 1024 + ri * 64 + rj * 4) * 2 ^ c.W + v

/-- An instruction that completed and wrote register `rd` with `v` and the flag with `f`, and nothing else but
`pc` and `STEPS` (R30, R40, R48). -/
structure WritesRegister (s t : State) (rd : Nat) (v : Nat) (f : Bool) : Prop where
  value : t.readReg rd = v
  otherRegs : ∀ j, j ≠ rd → t.readReg j = s.readReg j
  regCount : t.x.length = s.x.length
  flagValue : t.flag = f
  pcNext : t.pc = (s.pc + 1) % 2 ^ s.cfg.W
  counted : t.steps = s.steps + 1
  memory : ∀ a, t.readMem a = s.readMem a
  rest : t = { s with x := t.x, flag := t.flag, pc := t.pc, steps := t.steps }

/-- An instruction that completed and wrote the flag with `f`, and nothing else but `pc` and `STEPS`. -/
structure WritesFlag (s t : State) (f : Bool) : Prop where
  flagValue : t.flag = f
  pcNext : t.pc = (s.pc + 1) % 2 ^ s.cfg.W
  counted : t.steps = s.steps + 1
  regsSame : ∀ j, t.readReg j = s.readReg j
  memory : ∀ a, t.readMem a = s.readMem a
  rest : t = { s with flag := t.flag, pc := t.pc, steps := t.steps }

/-- An instruction that completed with `pc` at `target`, and changed nothing else but `STEPS` (R200). -/
structure GoesTo (s t : State) (target : Nat) : Prop where
  pcNext : t.pc = target
  counted : t.steps = s.steps + 1
  regsSame : ∀ j, t.readReg j = s.readReg j
  flagSame : t.flag = s.flag
  memory : ∀ a, t.readMem a = s.readMem a
  rest : t = { s with pc := t.pc, steps := t.steps }

/-- A store that completed: word `widx` holds `v`, every other word is as before, and nothing else changed but
`pc` and `STEPS` (R222). -/
structure StoresWord (s t : State) (widx : Nat) (v : Nat) : Prop where
  stored : t.readMem widx = v
  otherWords : ∀ a, a ≠ widx → t.readMem a = s.readMem a
  pcNext : t.pc = (s.pc + 1) % 2 ^ s.cfg.W
  counted : t.steps = s.steps + 1
  regsSame : ∀ j, t.readReg j = s.readReg j
  flagSame : t.flag = s.flag
  rest : t = { s with mem := t.mem, pc := t.pc, steps := t.steps }

/-- The state a step that takes fault `f` leaves (R249): every other piece of state as it was. -/
def faultedState (s : State) (f : Fault) : State := { s with status := .faulted, faultCause := some f }

/-- `tr 0, tr 1, …, tr k` are the states of `k` steps from `s`. -/
def IsTrace (s : State) (tr : Nat → State) (k : Nat) : Prop :=
  tr 0 = s ∧ ∀ j, j < k → step (tr j) = .next (tr (j + 1))

/-- The register an instruction writes: the column "writes" of R104. -/
def destinationOf : Instr → Option Nat
  | .and rd _ _ | .or rd _ _ | .xor rd _ _ | .add rd _ _ | .sub rd _ _ | .mull rd _ _
  | .umulh rd _ _ | .umod rd _ _ | .shl rd _ _ | .shr rd _ _ => some rd
  | .not rd _ | .mov rd _ | .read rd _ => some rd
  | .cmpe _ _ | .cmpa _ _ | .cmpae _ _ | .jmp _ | .cjmp _ | .cnjmp _ | .store _ _ | .storeW _ _
  | .answer _ => none

/-- The flag after a completed instruction: the table of R36, in the terms of the rules it names. -/
def flagTable (s : State) : Instr → Bool
  | .add _ ra src => decide ((s.readReg ra + operandValue s src) / 2 ^ s.cfg.W = 1)
  | .sub _ ra src => decide (s.readReg ra < operandValue s src)
  | .mull _ ra src | .umulh _ ra src => decide (s.readReg ra * operandValue s src ≥ 2 ^ s.cfg.W)
  | .shr _ ra src =>
    decide (1 ≤ operandValue s src ∧ operandValue s src ≤ s.cfg.W ∧
      s.readReg ra / 2 ^ (operandValue s src - 1) % 2 = 1)
  | .shl _ ra src =>
    decide (1 ≤ operandValue s src ∧ operandValue s src ≤ s.cfg.W ∧
      s.readReg ra / 2 ^ (s.cfg.W - operandValue s src) % 2 = 1)
  | .umod _ _ _ | .xor _ _ _ | .and _ _ _ | .or _ _ _ | .not _ _ => false
  | .cmpe ra src => decide (s.readReg ra = operandValue s src)
  | .cmpa ra src => decide (s.readReg ra > operandValue s src)
  | .cmpae ra src => decide (s.readReg ra ≥ operandValue s src)
  | .read _ src => decide ((tapeOf s.cfg (operandValue s src)).length ≤ s.cursor (operandValue s src))
  | .mov _ _ | .jmp _ | .cjmp _ | .cnjmp _ | .store _ _ | .storeW _ _ | .answer _ => s.flag

/-- The next `pc` of a completed instruction: the multiplexer of R200. -/
def pcMux (s : State) : Instr → Nat
  | .jmp b => operandValue s b
  | .cjmp b => if s.flag = true then operandValue s b else (s.pc + 1) % 2 ^ s.cfg.W
  | .cnjmp b => if s.flag = false then operandValue s b else (s.pc + 1) % 2 ^ s.cfg.W
  | .answer _ => s.pc
  | .and .. | .or .. | .xor .. | .not .. | .add .. | .sub .. | .mull .. | .umulh .. | .umod ..
  | .shl .. | .shr .. | .cmpe .. | .cmpa .. | .cmpae .. | .mov .. | .store .. | .storeW .. | .read .. =>
    (s.pc + 1) % 2 ^ s.cfg.W

/-- The opcode numbers that use the field `ri`, and those that use `rj` (R104, R105). -/
def opcodesUsingRi : List Nat := [0, 1, 2, 3, 4, 5, 6, 7, 10, 11, 12, 18, 24, 28, 30]
def opcodesUsingRj : List Nat := [0, 1, 2, 4, 5, 6, 7, 10, 11, 12, 13, 14, 15]

/-- The 22 opcode numbers (R105). -/
def definedOpcodes : List Nat :=
  [0, 1, 2, 3, 4, 5, 6, 7, 10, 11, 12, 13, 14, 15, 18, 20, 21, 22, 24, 28, 30, 31]

/-- The six checks of R107 on the word, each under its number, written with the fields of R101. -/
def LegalWord (c : Config) (iw : Nat) : Prop :=
  let h := iw / 2 ^ c.W % 65536
  let A := iw % 2 ^ c.W
  let op := h / 2048
  let I := h / 1024 % 2
  let ri := h / 64 % 16
  let rj := h / 4 % 16
  h % 4 = 0 ∧
  op ∈ definedOpcodes ∧
  (c.dialect = .v1_000 → op ≠ 22 ∧ op ≠ 28) ∧
  ((if op ∈ opcodesUsingRi then ri < c.K else ri = 0) ∧ (if op ∈ opcodesUsingRj then rj < c.K else rj = 0)) ∧
  (I = 0 → A / 16 = 0 ∧ A % 16 < c.K) ∧
  (op = 28 → I = 0 → c.storeWMode = .operand)

end Sys2Proof.Machine
end

