-- ==== Sys2Proof/Certificates/Slice0/Obligations.lean ====
section
/-! DEFINITION. The statements for the provers. Each docstring names the rule of spec/ it formalises; where a
rule rests on a decision of the spec (92_eei_decisions.md) or on a log entry, the docstring says so. -/

open Sys2Proof Sys2Proof.Machine

/-! ### Encoding (30_encoding.md; the layout is the spec's decisions D1 to D6) -/

/-- R110: decoding the word of a well-formed instruction gives the instruction back, every operand at every
value the encoding admits. -/
def Obligations.DecodeOfEncode : Prop :=
  ∀ (c : Config) (i : Instr), configOk c = true → i.wf c = true → decode c (encode c i) = .ok i

/-- R110: encoding a decoded instruction gives back the word, so decoding is injective on legal words. -/
def Obligations.EncodeOfDecode : Prop :=
  ∀ (c : Config) (iw : Nat) (i : Instr), configOk c = true → iw < 2 ^ (16 + c.W) →
    decode c iw = .ok i → encode c i = iw

/-- R107: a word is legal exactly when the six checks hold, and what it decodes to is then an instruction of
the configuration. -/
def Obligations.LegalExactlyWhenChecksHold : Prop :=
  ∀ (c : Config) (iw : Nat), configOk c = true →
    ((∃ i, decode c iw = .ok i) ↔ LegalWord c iw) ∧ ∀ i, decode c iw = .ok i → i.wf c = true

/-- R108: under `V1_000` no word decodes to `cnjmp` or `store.w`, and a word that decodes to another
instruction decodes to the same one under either dialect. -/
def Obligations.DialectFiltersTwoOpcodes : Prop :=
  ∀ (c : Config) (iw : Nat) (i : Instr), decode c iw = .ok i →
    ((∃ b, i = .cnjmp b) ∨ (∃ b r, i = .storeW b r) → c.dialect = .v2_00) ∧
    ((∀ b, i ≠ .cnjmp b) → (∀ b r, i ≠ .storeW b r) →
      ∀ d, decode { c with dialect := d } iw = .ok i)

/-- Words written out by the spec's encoding examples (R115, R140, R190, R201, R210, R220, R221, R230)
decode to the instructions they stand for. -/
def Obligations.SpecExampleWordsDecode : Prop :=
  decode Config.base 0x240001 = .ok (.add 0 0 (.imm 1)) ∧
  decode Config.base 0x904002 = .ok (.mov 1 (.reg 2)) ∧
  decode Config.base 0x6C0001 = .ok (.cmpe 0 (.imm 1)) ∧
  decode Config.base 0xA40002 = .ok (.jmp (.imm 2)) ∧
  decode Config.base 0xF44000 = .ok (.read 1 (.imm 0)) ∧
  decode Config.base 0xC04000 = .ok (.store (.reg 0) 1) ∧
  decode Config.base 0xF80000 = .ok (.answer (.reg 0)) ∧
  decode { Config.base with W := 64, K := 5 } 0xE4800000000000000008 = .ok (.storeW (.imm 8) 2)

/-! ### The step -/

/-- R50: a running core that is under its step limit and whose word at `pc` decodes to `i` takes the step of
`i`; the meaning itself advances `pc` and `STEPS`, so nothing is added around it. -/
def Obligations.StepRunsDecodedInstruction : Prop :=
  ∀ (s : State) (iw : Nat) (i : Instr), configOk s.cfg = true → s.status = .running →
    (∀ l, s.cfg.stepLimit = some l → s.steps < l) → s.cfg.prog[s.pc]? = some iw →
    decode s.cfg iw = .ok i → step s = exec i s

/-- R50, R251: before an instruction executes, a step that has reached the limit, then one that fetches outside
the program, then one whose word is illegal takes that fault, in this order (decisions D24, D25, D14, D3). -/
def Obligations.FaultPriorityBeforeExecution : Prop :=
  ∀ s : State, configOk s.cfg = true → s.status = .running →
    (∀ l, s.cfg.stepLimit = some l → l ≤ s.steps →
      step s = .next (faultedState s .stepLimitExceeded)) ∧
    ((∀ l, s.cfg.stepLimit = some l → s.steps < l) →
      (s.cfg.prog.length ≤ s.pc → step s = .next (faultedState s .fetchOutOfRange)) ∧
      ∀ iw, s.cfg.prog[s.pc]? = some iw →
        (¬ LegalWord s.cfg iw → step s = .next (faultedState s .illegalInstruction)) ∧
        (LegalWord s.cfg iw → ∃ i, decode s.cfg iw = .ok i ∧ step s = exec i s))

/-- R13, R16: in a configuration that obeys R13 every step of every state answers a next state; any other is
refused (log entry 4). -/
def Obligations.StepAlwaysAnswers : Prop :=
  ∀ s : State, if configOk s.cfg = true then ∃ t, step s = .next t
    else step s = .refused .invalidConfiguration

/-- R51: once `STATUS` is not `Running`, any number of steps changes nothing. -/
def Obligations.StoppedCoreIsFrozen : Prop :=
  ∀ (s : State) (tr : Nat → State) (k : Nat), configOk s.cfg = true → s.status ≠ .running →
    step s = .next s ∧ (IsTrace s tr k → tr k = s)

/-- R31: no step changes a parameter: the program, the tapes, the sizes, the dialect. -/
def Obligations.ParametersNeverChange : Prop :=
  ∀ s t : State, step s = .next t → t.cfg = s.cfg

/-! ### Reset -/

/-- R280: `reset` keeps the parameters and puts every other piece of state at its reset value, from any state
(the values of the four status registers are decision D29). -/
def Obligations.ResetPutsEveryRegister : Prop :=
  ∀ s : State, s.resetPin.cfg = s.cfg ∧ s.resetPin.x.length = s.cfg.K ∧
    (∀ i, s.resetPin.readReg i = 0) ∧ s.resetPin.flag = false ∧ s.resetPin.pc = 0 ∧
    (∀ i, s.resetPin.readMem i = initWord s.cfg i) ∧ s.resetPin.tcur0 = 0 ∧ s.resetPin.tcur1 = 0 ∧
    s.resetPin.status = .running ∧ s.resetPin.haltCode = 0 ∧ s.resetPin.faultCause = none ∧
    s.resetPin.steps = 0

/-- R281: the first instruction fetched after reset is `PROG[0]`. -/
def Obligations.FirstFetchIsIndexZero : Prop :=
  ∀ (c : Config) (iw : Nat) (rest : List Nat), c.prog = iw :: rest → fetchWord (State.boot c) = some iw

/-- R34: along every run from reset, a register that no instruction completed so far has as its destination
still reads 0; an instruction that faulted has written nothing, whatever register it names. -/
def Obligations.UnwrittenRegisterReadsZero : Prop :=
  ∀ (c : Config) (tr : Nat → State) (k : Nat) (r : Nat), IsTrace (State.boot c) tr k →
    (∀ j, j < k → ∀ i, fetchDecode (tr j) = .ok i → (tr (j + 1)).steps = (tr j).steps + 1 →
      destinationOf i ≠ some r) →
    (tr k).readReg r = 0

/-! ### The instructions -/

/-- R140. -/
def Obligations.MovCopiesOperand : Prop :=
  ∀ (s : State) (rd : Nat) (src : Operand), Ready s (.mov rd src) →
    decode s.cfg (wordOf s.cfg 18 rd 0 src) = .ok (.mov rd src) ∧
    ∃ t, exec (.mov rd src) s = .next t ∧ WritesRegister s t rd (operandValue s src) s.flag

/-- R151: the sum wraps and the flag is its carry `s div 2^W`. -/
def Obligations.AddWrapsWithCarry : Prop :=
  ∀ (s : State) (rd ra : Nat) (src : Operand), Ready s (.add rd ra src) →
    decode s.cfg (wordOf s.cfg 4 rd ra src) = .ok (.add rd ra src) ∧
    ∃ t, exec (.add rd ra src) s = .next t ∧
      WritesRegister s t rd ((s.readReg ra + operandValue s src) % 2 ^ s.cfg.W)
        (decide ((s.readReg ra + operandValue s src) / 2 ^ s.cfg.W = 1))

/-- R152 with the flag read as the borrow (decision D7). -/
def Obligations.SubWrapsWithBorrow : Prop :=
  ∀ (s : State) (rd ra : Nat) (src : Operand), Ready s (.sub rd ra src) →
    decode s.cfg (wordOf s.cfg 5 rd ra src) = .ok (.sub rd ra src) ∧
    ∃ t, exec (.sub rd ra src) s = .next t ∧
      WritesRegister s t rd
        (if s.readReg ra ≥ operandValue s src then s.readReg ra - operandValue s src
         else s.readReg ra + 2 ^ s.cfg.W - operandValue s src)
        (decide (s.readReg ra < operandValue s src))

/-- R153: the low word of the product; the flag says that it did not fit (decision D8). -/
def Obligations.MullLowProduct : Prop :=
  ∀ (s : State) (rd ra : Nat) (src : Operand), Ready s (.mull rd ra src) →
    decode s.cfg (wordOf s.cfg 6 rd ra src) = .ok (.mull rd ra src) ∧
    ∃ t, exec (.mull rd ra src) s = .next t ∧
      WritesRegister s t rd (s.readReg ra * operandValue s src % 2 ^ s.cfg.W)
        (decide (s.readReg ra * operandValue s src ≥ 2 ^ s.cfg.W))

/-- R154: the high word of the product; the flag equals "result not 0" (decision D9). -/
def Obligations.UmulhHighProduct : Prop :=
  ∀ (s : State) (rd ra : Nat) (src : Operand), Ready s (.umulh rd ra src) →
    decode s.cfg (wordOf s.cfg 7 rd ra src) = .ok (.umulh rd ra src) ∧
    ∃ t, exec (.umulh rd ra src) s = .next t ∧
      WritesRegister s t rd (s.readReg ra * operandValue s src / 2 ^ s.cfg.W)
        (decide (s.readReg ra * operandValue s src / 2 ^ s.cfg.W ≠ 0))

/-- R155 for a divisor that is not 0: the remainder, below the divisor, flag cleared (decision D10). -/
def Obligations.UmodRemainder : Prop :=
  ∀ (s : State) (rd ra : Nat) (src : Operand), Ready s (.umod rd ra src) → operandValue s src ≠ 0 →
    decode s.cfg (wordOf s.cfg 10 rd ra src) = .ok (.umod rd ra src) ∧
    ∃ t, exec (.umod rd ra src) s = .next t ∧
      WritesRegister s t rd (s.readReg ra % operandValue s src) false ∧
      t.readReg rd < operandValue s src

/-- R242: a divisor of 0, from a register or an immediate, takes DivideByZero and writes nothing else. -/
def Obligations.UmodByZeroFaults : Prop :=
  ∀ (s : State) (rd ra r : Nat),
    exec (.umod rd ra (.imm 0)) s = .next (faultedState s .divideByZero) ∧
    (s.readReg r = 0 → exec (.umod rd ra (.reg r)) s = .next (faultedState s .divideByZero))

/-- R172: the amount is the whole operand value; the flag is `a[W-n]` for `1 <= n <= W` and 0 otherwise
(decision D12). -/
def Obligations.ShlShiftsWholeAmount : Prop :=
  ∀ (s : State) (rd ra : Nat) (src : Operand), Ready s (.shl rd ra src) →
    decode s.cfg (wordOf s.cfg 11 rd ra src) = .ok (.shl rd ra src) ∧
    ∃ t, exec (.shl rd ra src) s = .next t ∧
      WritesRegister s t rd (s.readReg ra * 2 ^ operandValue s src % 2 ^ s.cfg.W)
        (decide (s.readReg ra * 2 ^ operandValue s src / 2 ^ s.cfg.W % 2 = 1))

/-- R171: the amount is the whole operand value; the flag is `a[n-1]` for `n >= 1`, which is 0 above `W`, and
0 for `n = 0` (decision D12). -/
def Obligations.ShrShiftsWholeAmount : Prop :=
  ∀ (s : State) (rd ra : Nat) (src : Operand), Ready s (.shr rd ra src) →
    decode s.cfg (wordOf s.cfg 12 rd ra src) = .ok (.shr rd ra src) ∧
    ∃ t, exec (.shr rd ra src) s = .next t ∧
      WritesRegister s t rd (s.readReg ra / 2 ^ operandValue s src)
        (decide (1 ≤ operandValue s src ∧ (s.readReg ra).testBit (operandValue s src - 1) = true))

/-- R180: bit by bit, within the word; the flag is cleared. -/
def Obligations.XorBitwise : Prop :=
  ∀ (s : State) (rd ra : Nat) (src : Operand), Ready s (.xor rd ra src) →
    decode s.cfg (wordOf s.cfg 2 rd ra src) = .ok (.xor rd ra src) ∧
    ∃ t v, exec (.xor rd ra src) s = .next t ∧ WritesRegister s t rd v false ∧ v < 2 ^ s.cfg.W ∧
      ∀ k, v.testBit k = ((s.readReg ra).testBit k != (operandValue s src).testBit k)

/-- R181: bit by bit, within the word; the flag is cleared (decision D11). -/
def Obligations.AndBitwise : Prop :=
  ∀ (s : State) (rd ra : Nat) (src : Operand), Ready s (.and rd ra src) →
    decode s.cfg (wordOf s.cfg 0 rd ra src) = .ok (.and rd ra src) ∧
    ∃ t v, exec (.and rd ra src) s = .next t ∧ WritesRegister s t rd v false ∧ v < 2 ^ s.cfg.W ∧
      ∀ k, v.testBit k = ((s.readReg ra).testBit k && (operandValue s src).testBit k)

/-- R182: bit by bit, within the word; the flag is cleared (decision D11). -/
def Obligations.OrBitwise : Prop :=
  ∀ (s : State) (rd ra : Nat) (src : Operand), Ready s (.or rd ra src) →
    decode s.cfg (wordOf s.cfg 1 rd ra src) = .ok (.or rd ra src) ∧
    ∃ t v, exec (.or rd ra src) s = .next t ∧ WritesRegister s t rd v false ∧ v < 2 ^ s.cfg.W ∧
      ∀ k, v.testBit k = ((s.readReg ra).testBit k || (operandValue s src).testBit k)

/-- R183: every one of the W bits inverted and no bit above them; the flag is cleared (decision D11). -/
def Obligations.NotInvertsWordBits : Prop :=
  ∀ (s : State) (rd : Nat) (src : Operand), Ready s (.not rd src) →
    decode s.cfg (wordOf s.cfg 3 rd 0 src) = .ok (.not rd src) ∧
    ∃ t v, exec (.not rd src) s = .next t ∧ WritesRegister s t rd v false ∧ v < 2 ^ s.cfg.W ∧
      ∀ k, k < s.cfg.W → v.testBit k = !(operandValue s src).testBit k

/-- R190. -/
def Obligations.CmpeSetsFlagOnEqual : Prop :=
  ∀ (s : State) (ra : Nat) (src : Operand), Ready s (.cmpe ra src) →
    decode s.cfg (wordOf s.cfg 13 0 ra src) = .ok (.cmpe ra src) ∧
    ∃ t, exec (.cmpe ra src) s = .next t ∧ WritesFlag s t (decide (s.readReg ra = operandValue s src))

/-- R191. -/
def Obligations.CmpaSetsFlagOnAbove : Prop :=
  ∀ (s : State) (ra : Nat) (src : Operand), Ready s (.cmpa ra src) →
    decode s.cfg (wordOf s.cfg 14 0 ra src) = .ok (.cmpa ra src) ∧
    ∃ t, exec (.cmpa ra src) s = .next t ∧ WritesFlag s t (decide (s.readReg ra > operandValue s src))

/-- R192. -/
def Obligations.CmpaeSetsFlagOnAboveOrEqual : Prop :=
  ∀ (s : State) (ra : Nat) (src : Operand), Ready s (.cmpae ra src) →
    decode s.cfg (wordOf s.cfg 15 0 ra src) = .ok (.cmpae ra src) ∧
    ∃ t, exec (.cmpae ra src) s = .next t ∧ WritesFlag s t (decide (s.readReg ra ≥ operandValue s src))

/-- R201: the jump completes for every target; a target outside the program faults at the next step, with
`pc` at the target (R247), unless the step limit comes first (R251). -/
def Obligations.JmpAlwaysTaken : Prop :=
  ∀ (s : State) (b : Operand), Ready s (.jmp b) →
    decode s.cfg (wordOf s.cfg 20 0 0 b) = .ok (.jmp b) ∧
    ∃ t, exec (.jmp b) s = .next t ∧ GoesTo s t (operandValue s b) ∧
      (s.status = .running → s.cfg.prog.length ≤ operandValue s b → s.cfg.stepLimit = none →
        step t = .next (faultedState t .fetchOutOfRange))

/-- R202. -/
def Obligations.CjmpTakenWhenFlagSet : Prop :=
  ∀ (s : State) (b : Operand), Ready s (.cjmp b) →
    decode s.cfg (wordOf s.cfg 21 0 0 b) = .ok (.cjmp b) ∧
    ∃ t, exec (.cjmp b) s = .next t ∧
      (s.flag = true → GoesTo s t (operandValue s b)) ∧
      (s.flag = false → GoesTo s t ((s.pc + 1) % 2 ^ s.cfg.W))

/-- R203: taken when the flag is clear; under `V1_000` the word is illegal. -/
def Obligations.CnjmpTakenWhenFlagClear : Prop :=
  (∀ (s : State) (b : Operand), Ready s (.cnjmp b) →
    decode s.cfg (wordOf s.cfg 22 0 0 b) = .ok (.cnjmp b) ∧
    ∃ t, exec (.cnjmp b) s = .next t ∧
      (s.flag = false → GoesTo s t (operandValue s b)) ∧
      (s.flag = true → GoesTo s t ((s.pc + 1) % 2 ^ s.cfg.W))) ∧
  ∀ (s : State) (b : Operand), configOk s.cfg = true → b.wf s.cfg = true → s.cfg.dialect = .v1_000 →
    s.status = .running → s.cfg.stepLimit = none →
    s.cfg.prog[s.pc]? = some (wordOf s.cfg 22 0 0 b) →
    step s = .next (faultedState s .illegalInstruction)

/-- R210: a `read` of a tape that has an unread word delivers it into its register with the flag clear. R211:
the word is the one at the cursor, and that tape's cursor moves by one and no other. That the tape index may
come from a register is decision D16. -/
def Obligations.ReadDeliversNextTapeWord : Prop :=
  ∀ (s : State) (rd : Nat) (src : Operand), Ready s (.read rd src) →
    decode s.cfg (wordOf s.cfg 30 rd 0 src) = .ok (.read rd src) ∧
    ∀ w,
      (operandValue s src = 0 → s.cfg.tape0[s.tcur0]? = some w →
        ∃ t, exec (.read rd src) s = .next t ∧
          WritesRegister { s with tcur0 := s.tcur0 + 1 } t rd w false) ∧
      (operandValue s src = 1 → s.cfg.tape1[s.tcur1]? = some w →
        ∃ t, exec (.read rd src) s = .next t ∧
          WritesRegister { s with tcur1 := s.tcur1 + 1 } t rd w false)

/-- R210: at the end of a tape, and for an index that names no tape (decision D16), `read` gives 0 with the flag
set and moves no cursor; it never faults. -/
def Obligations.ReadPastEndSetsFlag : Prop :=
  ∀ (s : State) (rd : Nat) (src : Operand), Ready s (.read rd src) →
    (operandValue s src = 0 → s.cfg.tape0.length ≤ s.tcur0) →
    (operandValue s src = 1 → s.cfg.tape1.length ≤ s.tcur1) →
    ∃ t, exec (.read rd src) s = .next t ∧ WritesRegister s t rd 0 true

/-- R220: operand A, register or immediate (decision D18), is the word index (R72); a word inside memory and
outside the read-only segment takes the data register's value. -/
def Obligations.StoreWritesWord : Prop :=
  ∀ (s : State) (dest : Operand) (rs : Nat), Ready s (.store dest rs) →
    decode s.cfg (wordOf s.cfg 24 rs 0 dest) = .ok (.store dest rs) ∧
    (operandValue s dest < s.cfg.memWords →
      (s.cfg.memModel = .hv → s.cfg.roWords ≤ operandValue s dest) →
      ∃ t, exec (.store dest rs) s = .next t ∧ StoresWord s t (operandValue s dest) (s.readReg rs))

/-- R221: operand A is a byte offset, `ceil(W/8)` to a word (decision D19); an aligned one stores the word it
names. -/
def Obligations.StoreWWritesWord : Prop :=
  ∀ (s : State) (dest : Operand) (rs : Nat), Ready s (.storeW dest rs) →
    decode s.cfg (wordOf s.cfg 28 rs 0 dest) = .ok (.storeW dest rs) ∧
    ∀ widx, operandValue s dest = widx * ((s.cfg.W + 7) / 8) → widx < s.cfg.memWords →
      (s.cfg.memModel = .hv → s.cfg.roWords ≤ widx) →
      ∃ t, exec (.storeW dest rs) s = .next t ∧ StoresWord s t widx (s.readReg rs)

/-- R73: `store.w` at byte offset `i * BPW` and `store` at word index `i` do the same, faults included
(decision D19). -/
def Obligations.StoreWAgreesWithStore : Prop :=
  ∀ (s : State) (i : Nat) (rs : Nat), configOk s.cfg = true →
    exec (.storeW (.imm (i * ((s.cfg.W + 7) / 8))) rs) s = exec (.store (.imm i) rs) s

/-- R222: whatever a store answers, no register and no flag changes, and either it faulted with nothing written
and the write port idle, or exactly one word took the whole data word, the port carried that write, and `pc`
went on. The word index of `store.w` (R221) rests on the byte scale of decision D19; the write port is decision D31,
a function of the state here (log entry 12). -/
def Obligations.StoreWritesOneWordOrNone : Prop :=
  ∀ (s t : State) (dest : Operand) (rs : Nat),
    (exec (.store dest rs) s = .next t →
      (∃ f, t = faultedState s f ∧ storePort s (.store dest rs) = none) ∨
        StoresWord s t (operandValue s dest) (s.readReg rs) ∧
          storePort s (.store dest rs) = some (operandValue s dest, s.readReg rs)) ∧
    (exec (.storeW dest rs) s = .next t →
      (∃ f, t = faultedState s f ∧ storePort s (.storeW dest rs) = none) ∨
        StoresWord s t (operandValue s dest / ((s.cfg.W + 7) / 8)) (s.readReg rs) ∧
          storePort s (.storeW dest rs) =
            some (operandValue s dest / ((s.cfg.W + 7) / 8), s.readReg rs))

/-- R243, R244: a word index of `MEM_WORDS` or more takes MemOutOfBounds, and under `hv` one below `RO_WORDS`
takes MemReadOnly; nothing is written. For `store.w` the byte offset `widx * ceil(W/8)` names word `widx`, which
is R73's byte scale (decision D19). -/
def Obligations.StoreOutsideWritableFaults : Prop :=
  ∀ (s : State) (dest : Operand) (rs : Nat) (widx : Nat), configOk s.cfg = true →
    (s.cfg.memWords ≤ widx →
      (operandValue s dest = widx → exec (.store dest rs) s = .next (faultedState s .memOutOfBounds)) ∧
      (operandValue s dest = widx * ((s.cfg.W + 7) / 8) →
        exec (.storeW dest rs) s = .next (faultedState s .memOutOfBounds))) ∧
    (s.cfg.memModel = .hv → widx < s.cfg.roWords →
      (operandValue s dest = widx → exec (.store dest rs) s = .next (faultedState s .memReadOnly)) ∧
      (operandValue s dest = widx * ((s.cfg.W + 7) / 8) →
        exec (.storeW dest rs) s = .next (faultedState s .memReadOnly)))

/-- R248, R251: a byte offset that is no multiple of `BPW` takes MisalignedStore, before the bounds and
read-only checks, and nothing is written (decisions D19, D24). -/
def Obligations.MisalignedStoreWFaults : Prop :=
  ∀ (s : State) (dest : Operand) (rs : Nat), operandValue s dest % ((s.cfg.W + 7) / 8) ≠ 0 →
    exec (.storeW dest rs) s = .next (faultedState s .misalignedStore)

/-- R230: `answer` halts with its operand's value, counts as completed, leaves `pc` and everything else, and
the core is frozen after it (decision D26). -/
def Obligations.AnswerHalts : Prop :=
  ∀ (s : State) (code : Operand), Ready s (.answer code) →
    decode s.cfg (wordOf s.cfg 31 0 0 code) = .ok (.answer code) ∧
    ∃ t, exec (.answer code) s = .next t ∧ t.status = .halted ∧ t.haltCode = operandValue s code ∧
      t.steps = s.steps + 1 ∧ t = { s with status := t.status, haltCode := t.haltCode, steps := t.steps } ∧
      step t = .next t

/-! ### Laws of the arithmetic -/

/-- R156 law 1: `add` then `sub` of the same operand gives the first operand back; the operand is not the
register the first instruction overwrites. -/
def Obligations.AddThenSubRestores : Prop :=
  ∀ (s t u : State) (rd ra : Nat) (src : Operand), Ready s (.add rd ra src) → src ≠ .reg rd →
    exec (.add rd ra src) s = .next t → exec (.sub rd rd src) t = .next u →
    u.readReg rd = s.readReg ra

/-- R156 laws 2 and 4: the two products are the exact product, and their flags agree. -/
def Obligations.ProductWordsCompose : Prop :=
  ∀ (s : State) (rd ra : Nat) (src : Operand), Ready s (.mull rd ra src) →
    ∃ lo hi, exec (.mull rd ra src) s = .next lo ∧ exec (.umulh rd ra src) s = .next hi ∧
      hi.readReg rd * 2 ^ s.cfg.W + lo.readReg rd = s.readReg ra * operandValue s src ∧
      hi.flag = lo.flag

/-! ### Rules of the whole machine -/

/-- R57, with R32, R76 and R245: every step keeps the invariant. -/
def Obligations.StepKeepsInvariant : Prop :=
  ∀ s t : State, s.Inv → step s = .next t → t.Inv

/-- R57, R280: the state after reset has the invariant, under every configuration that obeys R13. -/
def Obligations.ResetHasInvariant : Prop :=
  State.reset.Inv ∧ ∀ c : Config, configOk c = true → (State.boot c).Inv

/-- R249: a step that faults changes `STATUS` and `FAULT_CAUSE` and nothing else (decision D24). -/
def Obligations.FaultsArePrecise : Prop :=
  ∀ s t : State, s.status = .running → step s = .next t → t.status = .faulted →
    ∃ f, t = faultedState s f

/-- R252: no number of steps clears or overwrites a recorded cause. -/
def Obligations.FaultCauseNeverCleared : Prop :=
  ∀ (s : State) (tr : Nat → State) (k : Nat) (f : Fault), s.Inv → s.faultCause = some f →
    IsTrace s tr k → (tr k).faultCause = some f ∧ (tr k).status = .faulted

/-- R251, R254: an instruction other than `umod` and the two stores has no execution fault (decision D24),
whatever its operands: not on overflow, not at the end of a tape or for an index that names none (decision D16),
not for any shift amount (decision D12) or jump target (decision D14). -/
def Obligations.OnlyUmodAndStoresFault : Prop :=
  ∀ (i : Instr) (s : State), s.status = .running →
    (∀ rd ra b, i ≠ .umod rd ra b) → (∀ b r, i ≠ .store b r) → (∀ b r, i ≠ .storeW b r) →
    ∃ t, exec i s = .next t ∧ t.faultCause = s.faultCause ∧ t.status ≠ .faulted

/-- R44: `STATUS` leaves `Running` only by `answer` or by a fault, and changes at no other time
(decision D22). -/
def Obligations.StatusChangesOnlyByAnswerOrFault : Prop :=
  ∀ s t : State, step s = .next t → t.status ≠ s.status →
    s.status = .running ∧
    ((t.status = .halted ∧ ∃ code, fetchDecode s = .ok (.answer code)) ∨
      (t.status = .faulted ∧ t.faultCause ≠ none))

/-- R48: a step of a running core counts one completed instruction, `answer` included, and none when it faults
(decision D27). -/
def Obligations.StepsCountsCompleted : Prop :=
  ∀ s t : State, s.status = .running → step s = .next t →
    t.steps = if t.status = .faulted then s.steps else s.steps + 1

/-- R200, R40: the next `pc` of every step is that of the multiplexer, and a fault keeps it (decisions D14,
D15). -/
def Obligations.NextPcIsTheMultiplexer : Prop :=
  ∀ s t : State, s.status = .running → step s = .next t →
    (t.status = .faulted → t.pc = s.pc) ∧
    (t.status ≠ .faulted → ∃ i, fetchDecode s = .ok i ∧ t.pc = pcMux s i)

/-- R36: the flag after every step is that of the table; an instruction that faults leaves it (its entries for
`sub`, the products, `umod`, the shifts, `and`, `or`, `not` are decisions D7 to D12). -/
def Obligations.FlagFollowsTheTable : Prop :=
  ∀ s t : State, s.regsOk = true → s.status = .running → step s = .next t →
    (t.status = .faulted → t.flag = s.flag) ∧
    (t.status ≠ .faulted → ∃ i, fetchDecode s = .ok i ∧ t.flag = flagTable s i)

/-- R37: only `cjmp` and `cnjmp` read the flag: under any other instruction a different flag changes nothing
but the flag, which is either written with the same value or kept (decision D13). -/
def Obligations.OnlyConditionalJumpsReadFlag : Prop :=
  ∀ (i : Instr) (s t : State) (f : Bool), (∀ b, i ≠ .cjmp b) → (∀ b, i ≠ .cnjmp b) →
    exec i s = .next t →
    ∃ g, exec i { s with flag := f } = .next { t with flag := g } ∧
      (g = t.flag ∨ g = f ∧ t.flag = s.flag)

/-- R39: no instruction reads `pc` as data: a different `pc` changes nothing but `pc`. -/
def Obligations.NoInstructionReadsPc : Prop :=
  ∀ (i : Instr) (s t : State) (p : Nat),
    exec i s = .next t → ∃ q, exec i { s with pc := p } = .next { t with pc := q }

/-- R80, R77: no program reads data memory: with other contents and another `MEM_INIT` every step does the same
to everything but memory (decisions D5, D21). -/
def Obligations.DataMemoryIsNeverRead : Prop :=
  ∀ (s t : State) (m : Memory) (init : List (Nat × Nat)),
    configOk { s.cfg with memInit := init } = true → step s = .next t →
    ∃ m', step { s with mem := m, cfg := { s.cfg with memInit := init } } =
      .next { t with mem := m', cfg := { t.cfg with memInit := init } }

/-- R43: the cursors start at zero; in every step each stays or grows by one; it grows only by a `read` of its
own tape, so at most one moves; and it never passes the end of its tape. -/
def Obligations.CursorsMoveOnlyByRead : Prop :=
  (∀ c : Config, (State.boot c).tcur0 = 0 ∧ (State.boot c).tcur1 = 0) ∧
  ∀ s t : State, s.Inv → step s = .next t →
    (t.tcur0 = s.tcur0 ∨ (t.tcur0 = s.tcur0 + 1 ∧
      ∃ rd b, fetchDecode s = .ok (.read rd b) ∧ operandValue s b = 0)) ∧
    (t.tcur1 = s.tcur1 ∨ (t.tcur1 = s.tcur1 + 1 ∧
      ∃ rd b, fetchDecode s = .ok (.read rd b) ∧ operandValue s b = 1)) ∧
    t.tcur0 ≤ t.cfg.tape0.length ∧ t.tcur1 ≤ t.cfg.tape1.length

/-- R83: in every step a word takes what the write port carries for it and any other word stays; so along every
run from reset memory is the run's stores applied in program order to `MEM_INIT`; and the host reads memory only
once the run is over. The write port and the host's read are R54, decision D31, functions of the state here (log
entry 12). -/
def Obligations.MemoryIsTheStoresInOrder : Prop :=
  (∀ (s t : State) (a : Nat), step s = .next t →
    (∀ w, ramWritePort s = some (a, w) → t.readMem a = w) ∧
    ((∀ w, ramWritePort s ≠ some (a, w)) → t.readMem a = s.readMem a)) ∧
  ∀ (c : Config) (tr : Nat → State) (k a : Nat), IsTrace (State.boot c) tr k →
    (tr k).readMem a =
      (List.range k).foldl
        (fun v j => match ramWritePort (tr j) with
          | some (widx, w) => if widx = a then w else v
          | none => v)
        (initWord c a) ∧
    ((tr k).status = .running → ∀ n, hostMemRead (tr k) a n = none)

/-- R76: under `hv` no step changes a word of the read-only segment. -/
def Obligations.ReadOnlySegmentNeverChanges : Prop :=
  ∀ (s t : State) (a : Nat), s.cfg.memModel = .hv → a < s.cfg.roWords → step s = .next t →
    t.readMem a = s.readMem a

/-- R245, R240: with `STEP_LIMIT = L` no step takes `STEPS` past `L`, and one that leaves the core running counts
an instruction; so a run from reset completes at most `L` instructions and is over after `L + 1` steps
(decision D25). -/
def Obligations.StepLimitEndsTheRun : Prop :=
  (∀ (s t : State) (l : Nat), s.Inv → s.cfg.stepLimit = some l → step s = .next t →
    t.steps ≤ l ∧ (t.status = .running → t.steps = s.steps + 1)) ∧
  ∀ (c : Config) (l : Nat) (tr : Nat → State), c.stepLimit = some l →
    IsTrace (State.boot c) tr (l + 1) →
    (tr (l + 1)).steps ≤ l ∧ (tr (l + 1)).status ≠ .running

/-- R240, R54: the result is read once the core has stopped and tells a halt by its code from a fault by its
cause; memory is read whole (decision D31). -/
def Obligations.RunResultReadsTheStop : Prop :=
  ∀ s : State, s.Inv →
    (s.status = .running → runResult s = none) ∧
    (s.status = .halted → ∃ r, runResult s = some r ∧ r.ended = .normalHalt s.haltCode ∧
      r.registers = s.x ∧ r.stepCount = s.steps ∧ r.memory.length = s.cfg.memWords ∧
      ∀ a, a < s.cfg.memWords → r.memory[a]? = some (s.readMem a)) ∧
    (s.status = .faulted → ∃ r f, runResult s = some r ∧ s.faultCause = some f ∧
      r.ended = .runtimeFault f ∧ r.registers = s.x ∧ r.stepCount = s.steps ∧
      r.memory.length = s.cfg.memWords ∧ ∀ a, a < s.cfg.memWords → r.memory[a]? = some (s.readMem a))
end

