-- ==== Sys2Proof/Laws/Assembly.lean ====
section
/-! SUPPORT. The assembly form of every instruction reads back as that instruction (spec 30_encoding.md R113 to
R115). -/

namespace Sys2Proof.Machine

open Sys2Proof

/-- Operand A written as a token is read as the same operand (R113). -/
@[simp] theorem tokenOperand_operandToken (b : Operand) : tokenOperand (operandToken b) = b := by
  cases b <;> rfl

/-- Each mnemonic with its operand tokens stands for one instruction (R114, R115). -/
theorem readAssembly_of (i : Instr) : readAssembly (mnemonicOf i) (tokensOf i) = some i := by
  cases i <;> simp [readAssembly, mnemonicOf, tokensOf, read1, read2, read3, readStore]

end Sys2Proof.Machine
end

