-- ==== Sys2Proof/Laws/Decode.lean ====
section
/-! SUPPORT. The fields of an instruction word (spec 30_encoding.md R100 to R102) and what decoding answers. -/

namespace Sys2Proof.Machine

open Sys2Proof

/-- The constraints of R13 the decoder rests on. -/
theorem configOk_bounds {c : Config} (h : configOk c = true) :
    4 ≤ c.W ∧ 1 ≤ c.K ∧ c.K ≤ 16 := by
  simp only [configOk, Bool.and_eq_true, decide_eq_true_eq] at h
  omega

/-- A word has 16 values below it at least, so a register number fits operand A. -/
theorem sixteen_le_pow {c : Config} (h : configOk c = true) : 16 ≤ 2 ^ c.W :=
  Nat.pow_le_pow_right (n := 2) (by omega) (configOk_bounds h).1

theorem headerBits_eq (W iw : Nat) : headerBits W iw = iw / 2 ^ W % 65536 := by
  simp [headerBits, bitField]

theorem headerBits_join {W h A : Nat} (hA : A < 2 ^ W) (hh : h < 65536) :
    headerBits W (h * 2 ^ W + A) = h := by
  rw [headerBits_eq, Nat.mul_comm, Nat.mul_add_div (Nat.two_pow_pos W), Nat.div_eq_of_lt hA]
  omega

theorem operandBits_join {W h A : Nat} (hA : A < 2 ^ W) : operandBits W (h * 2 ^ W + A) = A := by
  rw [operandBits, Nat.mul_comm, Nat.mul_add_mod, Nat.mod_eq_of_lt hA]

/-- The fields of R101 as quotients of the header. -/
theorem decodeFields_eq (c : Config) (h A : Nat) :
    decodeFields c h A =
      if h % 4 ≠ 0 then .error .reservedBits
      else match decodeOperand c (h / 1024 % 2) A with
        | .error e => .error e
        | .ok b => decodeOp c (h / 2048 % 32) (h / 64 % 16) (h / 4 % 16) b := by
  unfold decodeFields
  rw [show bitField h 1 0 = h % 4 by simp [bitField], show bitField h 10 10 = h / 1024 % 2 by simp [bitField],
    show bitField h 15 11 = h / 2048 % 32 by simp [bitField],
    show bitField h 9 6 = h / 64 % 16 by simp [bitField], show bitField h 5 2 = h / 4 % 16 by simp [bitField]]
  all_goals rfl

/-- The header with fields `op`, `I`, `ri`, `rj` gives them back. -/
theorem header_fields {op I ri rj : Nat} (ho : op < 32) (hI : I < 2) (hi : ri < 16) (hj : rj < 16) :
    let h := op * 2048 + I * 1024 + ri * 64 + rj * 4
    h < 65536 ∧ h % 4 = 0 ∧ h / 1024 % 2 = I ∧ h / 2048 % 32 = op ∧ h / 64 % 16 = ri ∧
      h / 4 % 16 = rj := by
  dsimp only; omega

/-- A well-formed operand A is a W-bit field. -/
theorem operandA_lt {c : Config} {src : Operand} (hc : configOk c = true) (h : src.wf c = true) :
    operandA src < 2 ^ c.W := by
  have h16 := sixteen_le_pow hc
  have hK := configOk_bounds hc
  cases src with
  | reg r => simp only [Operand.wf, decide_eq_true_eq] at h; simp only [operandA]; omega
  | imm v => simpa [Operand.wf, operandA] using h

/-- A well-formed operand A decodes from its own fields (R102). -/
theorem decodeOperand_wf {c : Config} {src : Operand} (hc : configOk c = true) (h : src.wf c = true) :
    decodeOperand c (operandI src) (operandA src) = .ok src := by
  have hK := configOk_bounds hc
  cases src with
  | reg r =>
    simp only [Operand.wf, decide_eq_true_eq] at h
    have hm : r % 16 = r := by omega
    simp [decodeOperand, operandI, operandA, hm, h, show r / 16 = 0 by omega]
  | imm v => simp [decodeOperand, operandI, operandA]

theorem wordOf_eq (c : Config) (op ri rj : Nat) (src : Operand) :
    wordOf c op ri rj src =
      (op * 2048 + operandI src * 1024 + ri * 64 + rj * 4) * 2 ^ c.W + operandA src := by
  cases src <;> simp [wordOf, operandI, operandA]

theorem operandI_lt (src : Operand) : operandI src < 2 := by
  cases src <;> simp [operandI]

/-- A word built from its fields decodes by its opcode. -/
theorem decode_wordOf {c : Config} {op ri rj : Nat} {src : Operand} (hc : configOk c = true)
    (hs : src.wf c = true) (ho : op < 32) (hi : ri < 16) (hj : rj < 16) :
    decode c (wordOf c op ri rj src) = decodeOp c op ri rj src := by
  obtain ⟨hh, hz, hI, hop, hri, hrj⟩ := header_fields ho (operandI_lt src) hi hj
  rw [wordOf_eq, decode, headerBits_join (operandA_lt hc hs) hh, operandBits_join (operandA_lt hc hs),
    decodeFields_eq, hz, hI, hop, hri, hrj, decodeOperand_wf hc hs]
  simp

theorem encode_eq_wordOf (c : Config) (i : Instr) :
    encode c i = wordOf c (opcodeOf i) (riOf i) (rjOf i) (operandOf i) := by
  rw [wordOf_eq, encode, encodeHeader]

/-- A decoded operand A is well formed and is the one its fields spell. -/
theorem decodeOperand_ok {c : Config} {I A : Nat} {b : Operand} (hI : I < 2) (hA : A < 2 ^ c.W)
    (h : decodeOperand c I A = .ok b) : b.wf c = true ∧ operandI b = I ∧ operandA b = A := by
  unfold decodeOperand at h
  split at h
  · cases h; simp [Operand.wf, operandI, operandA, hA]; omega
  · split at h
    · rename_i h1 h2
      cases h
      refine ⟨by simpa [Operand.wf] using h2.2, by simp [operandI]; omega, ?_⟩
      simp only [operandA]; omega
    · cases h

/-- When each class of instruction accepts its register fields (R104). -/
theorem form3_iff (c : Config) (mk : Nat → Nat → Operand → Instr) (ri rj : Nat) (b : Operand) :
    (∃ i, form3 c mk ri rj b = .ok i) ↔ ri < c.K ∧ rj < c.K := by
  unfold form3; split <;> simp_all

theorem formD_iff (c : Config) (mk : Nat → Operand → Instr) (ri rj : Nat) (b : Operand) :
    (∃ i, formD c mk ri rj b = .ok i) ↔ ri < c.K ∧ rj = 0 := by
  unfold formD; split
  · simp_all
  · split <;> simp_all

theorem formC_iff (c : Config) (mk : Nat → Operand → Instr) (ri rj : Nat) (b : Operand) :
    (∃ i, formC c mk ri rj b = .ok i) ↔ ri = 0 ∧ rj < c.K := by
  unfold formC; split
  · simp_all
  · split <;> simp_all

theorem formJ_iff (mk : Operand → Instr) (ri rj : Nat) (b : Operand) :
    (∃ i, formJ mk ri rj b = .ok i) ↔ ri = 0 ∧ rj = 0 := by
  unfold formJ
  by_cases hi : ri = 0 <;> by_cases hj : rj = 0 <;> simp [hi, hj]

theorem onlyV2_iff (c : Config) (r : Except Illegal Instr) :
    (∃ i, onlyV2 c r = .ok i) ↔ c.dialect = .v2_00 ∧ ∃ i, r = .ok i := by
  unfold onlyV2; split <;> simp_all

theorem storeWForm_iff (c : Config) (ri rj : Nat) (b : Operand) :
    (∃ i, storeWForm c ri rj b = .ok i) ↔ b.storeWOk c = true ∧ ri < c.K ∧ rj = 0 := by
  cases b with
  | imm v => simp [storeWForm, formD_iff, Operand.storeWOk]
  | reg r => by_cases hm : c.storeWMode = .operand <;> simp [storeWForm, Operand.storeWOk, hm, formD_iff]

/-- What the opcode map answers is well formed and carries its own fields. -/
theorem decodeOp_ok {c : Config} {op ri rj : Nat} {b : Operand} {i : Instr} (hb : b.wf c = true)
    (h : decodeOp c op ri rj b = .ok i) :
    i.wf c = true ∧ opcodeOf i = op ∧ riOf i = ri ∧ rjOf i = rj ∧ operandOf i = b := by
  unfold decodeOp at h
  split at h <;>
    (try simp only [form3, formD, formC, formJ, onlyV2] at h) <;>
    (try (cases b <;> simp only [storeWForm, formD] at h)) <;>
    (try split_ifs at h) <;>
    first
      | (cases h <;> done)
      | (cases h
         simp_all [Instr.wf, opcodeOf, riOf, rjOf, operandOf, Operand.storeWOk])

/-- An opcode fits its 5-bit field (R101). -/
theorem opcodeOf_lt (i : Instr) : opcodeOf i < 32 := by
  cases i <;> simp [opcodeOf]

/-- What a legal word carries: its fields spell an instruction of the configuration. -/
theorem decode_ok {c : Config} {iw : Nat} {i : Instr} (h : decode c iw = .ok i) :
    i.wf c = true ∧
    opcodeOf i = iw / 2 ^ c.W % 65536 / 2048 % 32 ∧
    operandI (operandOf i) = iw / 2 ^ c.W % 65536 / 1024 % 2 ∧
    riOf i = iw / 2 ^ c.W % 65536 / 64 % 16 ∧
    rjOf i = iw / 2 ^ c.W % 65536 / 4 % 16 ∧
    iw / 2 ^ c.W % 65536 % 4 = 0 ∧
    operandA (operandOf i) = iw % 2 ^ c.W := by
  rw [decode, decodeFields_eq, headerBits_eq] at h
  split at h
  · cases h
  · rename_i hz
    split at h
    · cases h
    · rename_i b hb
      obtain ⟨hw, hI, hA⟩ := decodeOperand_ok (Nat.mod_lt _ (by omega))
        (Nat.mod_lt _ (Nat.two_pow_pos c.W)) hb
      obtain ⟨hi, ho, hri, hrj, hop⟩ := decodeOp_ok hw h
      exact ⟨hi, ho, by rw [hop, hI], hri, hrj, by simpa using hz, by rw [hop, hA]⟩

end Sys2Proof.Machine
end

