-- ==== Sys2Proof/Laws/State.lean ====
section
/-! SUPPORT. One lemma per field per update of the state, each true by unfolding the update, so that no later
proof unfolds a record. -/

namespace Sys2Proof.Machine

open Sys2Proof

/-! ### writeReg -/

@[simp] theorem State.writeReg_cfg (s : State) (i : Nat) (v : Nat) :
    (s.writeReg i v).cfg = s.cfg := rfl
@[simp] theorem State.writeReg_x (s : State) (i : Nat) (v : Nat) :
    (s.writeReg i v).x = s.x.set i v := rfl
@[simp] theorem State.writeReg_flag (s : State) (i : Nat) (v : Nat) :
    (s.writeReg i v).flag = s.flag := rfl
@[simp] theorem State.writeReg_pc (s : State) (i : Nat) (v : Nat) :
    (s.writeReg i v).pc = s.pc := rfl
@[simp] theorem State.writeReg_mem (s : State) (i : Nat) (v : Nat) :
    (s.writeReg i v).mem = s.mem := rfl
@[simp] theorem State.writeReg_tcur0 (s : State) (i : Nat) (v : Nat) :
    (s.writeReg i v).tcur0 = s.tcur0 := rfl
@[simp] theorem State.writeReg_tcur1 (s : State) (i : Nat) (v : Nat) :
    (s.writeReg i v).tcur1 = s.tcur1 := rfl
@[simp] theorem State.writeReg_status (s : State) (i : Nat) (v : Nat) :
    (s.writeReg i v).status = s.status := rfl
@[simp] theorem State.writeReg_haltCode (s : State) (i : Nat) (v : Nat) :
    (s.writeReg i v).haltCode = s.haltCode := rfl
@[simp] theorem State.writeReg_faultCause (s : State) (i : Nat) (v : Nat) :
    (s.writeReg i v).faultCause = s.faultCause := rfl
@[simp] theorem State.writeReg_steps (s : State) (i : Nat) (v : Nat) :
    (s.writeReg i v).steps = s.steps := rfl

/-! ### setFlag -/

@[simp] theorem State.setFlag_cfg (s : State) (f : Bool) :
    (s.setFlag f).cfg = s.cfg := rfl
@[simp] theorem State.setFlag_x (s : State) (f : Bool) :
    (s.setFlag f).x = s.x := rfl
@[simp] theorem State.setFlag_flag (s : State) (f : Bool) :
    (s.setFlag f).flag = f := rfl
@[simp] theorem State.setFlag_pc (s : State) (f : Bool) :
    (s.setFlag f).pc = s.pc := rfl
@[simp] theorem State.setFlag_mem (s : State) (f : Bool) :
    (s.setFlag f).mem = s.mem := rfl
@[simp] theorem State.setFlag_tcur0 (s : State) (f : Bool) :
    (s.setFlag f).tcur0 = s.tcur0 := rfl
@[simp] theorem State.setFlag_tcur1 (s : State) (f : Bool) :
    (s.setFlag f).tcur1 = s.tcur1 := rfl
@[simp] theorem State.setFlag_status (s : State) (f : Bool) :
    (s.setFlag f).status = s.status := rfl
@[simp] theorem State.setFlag_haltCode (s : State) (f : Bool) :
    (s.setFlag f).haltCode = s.haltCode := rfl
@[simp] theorem State.setFlag_faultCause (s : State) (f : Bool) :
    (s.setFlag f).faultCause = s.faultCause := rfl
@[simp] theorem State.setFlag_steps (s : State) (f : Bool) :
    (s.setFlag f).steps = s.steps := rfl

/-! ### complete -/

@[simp] theorem State.complete_cfg (s : State) (npc : Nat) :
    (s.complete npc).cfg = s.cfg := rfl
@[simp] theorem State.complete_x (s : State) (npc : Nat) :
    (s.complete npc).x = s.x := rfl
@[simp] theorem State.complete_flag (s : State) (npc : Nat) :
    (s.complete npc).flag = s.flag := rfl
@[simp] theorem State.complete_pc (s : State) (npc : Nat) :
    (s.complete npc).pc = npc := rfl
@[simp] theorem State.complete_mem (s : State) (npc : Nat) :
    (s.complete npc).mem = s.mem := rfl
@[simp] theorem State.complete_tcur0 (s : State) (npc : Nat) :
    (s.complete npc).tcur0 = s.tcur0 := rfl
@[simp] theorem State.complete_tcur1 (s : State) (npc : Nat) :
    (s.complete npc).tcur1 = s.tcur1 := rfl
@[simp] theorem State.complete_status (s : State) (npc : Nat) :
    (s.complete npc).status = s.status := rfl
@[simp] theorem State.complete_haltCode (s : State) (npc : Nat) :
    (s.complete npc).haltCode = s.haltCode := rfl
@[simp] theorem State.complete_faultCause (s : State) (npc : Nat) :
    (s.complete npc).faultCause = s.faultCause := rfl
@[simp] theorem State.complete_steps (s : State) (npc : Nat) :
    (s.complete npc).steps = s.steps + 1 := rfl

/-! ### advance -/

@[simp] theorem State.advance_cfg (s : State) :
    (s.advance).cfg = s.cfg := rfl
@[simp] theorem State.advance_x (s : State) :
    (s.advance).x = s.x := rfl
@[simp] theorem State.advance_flag (s : State) :
    (s.advance).flag = s.flag := rfl
@[simp] theorem State.advance_pc (s : State) :
    (s.advance).pc = seqPc s := rfl
@[simp] theorem State.advance_mem (s : State) :
    (s.advance).mem = s.mem := rfl
@[simp] theorem State.advance_tcur0 (s : State) :
    (s.advance).tcur0 = s.tcur0 := rfl
@[simp] theorem State.advance_tcur1 (s : State) :
    (s.advance).tcur1 = s.tcur1 := rfl
@[simp] theorem State.advance_status (s : State) :
    (s.advance).status = s.status := rfl
@[simp] theorem State.advance_haltCode (s : State) :
    (s.advance).haltCode = s.haltCode := rfl
@[simp] theorem State.advance_faultCause (s : State) :
    (s.advance).faultCause = s.faultCause := rfl
@[simp] theorem State.advance_steps (s : State) :
    (s.advance).steps = s.steps + 1 := rfl

/-! ### writeMem -/

@[simp] theorem State.writeMem_cfg (s : State) (i : Nat) (v : Nat) :
    (s.writeMem i v).cfg = s.cfg := rfl
@[simp] theorem State.writeMem_x (s : State) (i : Nat) (v : Nat) :
    (s.writeMem i v).x = s.x := rfl
@[simp] theorem State.writeMem_flag (s : State) (i : Nat) (v : Nat) :
    (s.writeMem i v).flag = s.flag := rfl
@[simp] theorem State.writeMem_pc (s : State) (i : Nat) (v : Nat) :
    (s.writeMem i v).pc = s.pc := rfl
@[simp] theorem State.writeMem_mem (s : State) (i : Nat) (v : Nat) :
    (s.writeMem i v).mem = memWrite s.cfg s.mem i v := rfl
@[simp] theorem State.writeMem_tcur0 (s : State) (i : Nat) (v : Nat) :
    (s.writeMem i v).tcur0 = s.tcur0 := rfl
@[simp] theorem State.writeMem_tcur1 (s : State) (i : Nat) (v : Nat) :
    (s.writeMem i v).tcur1 = s.tcur1 := rfl
@[simp] theorem State.writeMem_status (s : State) (i : Nat) (v : Nat) :
    (s.writeMem i v).status = s.status := rfl
@[simp] theorem State.writeMem_haltCode (s : State) (i : Nat) (v : Nat) :
    (s.writeMem i v).haltCode = s.haltCode := rfl
@[simp] theorem State.writeMem_faultCause (s : State) (i : Nat) (v : Nat) :
    (s.writeMem i v).faultCause = s.faultCause := rfl
@[simp] theorem State.writeMem_steps (s : State) (i : Nat) (v : Nat) :
    (s.writeMem i v).steps = s.steps := rfl

/-! ### enterFault -/

@[simp] theorem State.enterFault_cfg (s : State) (f : Fault) :
    (s.enterFault f).cfg = s.cfg := rfl
@[simp] theorem State.enterFault_x (s : State) (f : Fault) :
    (s.enterFault f).x = s.x := rfl
@[simp] theorem State.enterFault_flag (s : State) (f : Fault) :
    (s.enterFault f).flag = s.flag := rfl
@[simp] theorem State.enterFault_pc (s : State) (f : Fault) :
    (s.enterFault f).pc = s.pc := rfl
@[simp] theorem State.enterFault_mem (s : State) (f : Fault) :
    (s.enterFault f).mem = s.mem := rfl
@[simp] theorem State.enterFault_tcur0 (s : State) (f : Fault) :
    (s.enterFault f).tcur0 = s.tcur0 := rfl
@[simp] theorem State.enterFault_tcur1 (s : State) (f : Fault) :
    (s.enterFault f).tcur1 = s.tcur1 := rfl
@[simp] theorem State.enterFault_status (s : State) (f : Fault) :
    (s.enterFault f).status = .faulted := rfl
@[simp] theorem State.enterFault_haltCode (s : State) (f : Fault) :
    (s.enterFault f).haltCode = s.haltCode := rfl
@[simp] theorem State.enterFault_faultCause (s : State) (f : Fault) :
    (s.enterFault f).faultCause = some f := rfl
@[simp] theorem State.enterFault_steps (s : State) (f : Fault) :
    (s.enterFault f).steps = s.steps := rfl

/-! ### halt -/

@[simp] theorem State.halt_cfg (s : State) (code : Nat) :
    (s.halt code).cfg = s.cfg := rfl
@[simp] theorem State.halt_x (s : State) (code : Nat) :
    (s.halt code).x = s.x := rfl
@[simp] theorem State.halt_flag (s : State) (code : Nat) :
    (s.halt code).flag = s.flag := rfl
@[simp] theorem State.halt_pc (s : State) (code : Nat) :
    (s.halt code).pc = s.pc := rfl
@[simp] theorem State.halt_mem (s : State) (code : Nat) :
    (s.halt code).mem = s.mem := rfl
@[simp] theorem State.halt_tcur0 (s : State) (code : Nat) :
    (s.halt code).tcur0 = s.tcur0 := rfl
@[simp] theorem State.halt_tcur1 (s : State) (code : Nat) :
    (s.halt code).tcur1 = s.tcur1 := rfl
@[simp] theorem State.halt_status (s : State) (code : Nat) :
    (s.halt code).status = .halted := rfl
@[simp] theorem State.halt_haltCode (s : State) (code : Nat) :
    (s.halt code).haltCode = code := rfl
@[simp] theorem State.halt_faultCause (s : State) (code : Nat) :
    (s.halt code).faultCause = s.faultCause := rfl
@[simp] theorem State.halt_steps (s : State) (code : Nat) :
    (s.halt code).steps = s.steps + 1 := rfl

/-! ### bumpCursor -/

@[simp] theorem State.bumpCursor_cfg (s : State) (t : Nat) :
    (s.bumpCursor t).cfg = s.cfg := by
  unfold State.bumpCursor; split <;> rfl
@[simp] theorem State.bumpCursor_x (s : State) (t : Nat) :
    (s.bumpCursor t).x = s.x := by
  unfold State.bumpCursor; split <;> rfl
@[simp] theorem State.bumpCursor_flag (s : State) (t : Nat) :
    (s.bumpCursor t).flag = s.flag := by
  unfold State.bumpCursor; split <;> rfl
@[simp] theorem State.bumpCursor_pc (s : State) (t : Nat) :
    (s.bumpCursor t).pc = s.pc := by
  unfold State.bumpCursor; split <;> rfl
@[simp] theorem State.bumpCursor_mem (s : State) (t : Nat) :
    (s.bumpCursor t).mem = s.mem := by
  unfold State.bumpCursor; split <;> rfl
@[simp] theorem State.bumpCursor_status (s : State) (t : Nat) :
    (s.bumpCursor t).status = s.status := by
  unfold State.bumpCursor; split <;> rfl
@[simp] theorem State.bumpCursor_haltCode (s : State) (t : Nat) :
    (s.bumpCursor t).haltCode = s.haltCode := by
  unfold State.bumpCursor; split <;> rfl
@[simp] theorem State.bumpCursor_faultCause (s : State) (t : Nat) :
    (s.bumpCursor t).faultCause = s.faultCause := by
  unfold State.bumpCursor; split <;> rfl
@[simp] theorem State.bumpCursor_steps (s : State) (t : Nat) :
    (s.bumpCursor t).steps = s.steps := by
  unfold State.bumpCursor; split <;> rfl
theorem State.bumpCursor_tcur0 (s : State) (t : Nat) :
    (s.bumpCursor t).tcur0 = if t = 0 then s.tcur0 + 1 else s.tcur0 := by
  unfold State.bumpCursor; split <;> simp_all
theorem State.bumpCursor_tcur1 (s : State) (t : Nat) :
    (s.bumpCursor t).tcur1 = if t = 1 then s.tcur1 + 1 else s.tcur1 := by
  unfold State.bumpCursor; split <;> simp_all

/-! ### boot and resetPin -/

@[simp] theorem State.boot_cfg (c : Config) : (State.boot c).cfg = c := rfl
@[simp] theorem State.boot_x (c : Config) : (State.boot c).x = List.replicate c.K 0 := rfl
@[simp] theorem State.boot_flag (c : Config) : (State.boot c).flag = false := rfl
@[simp] theorem State.boot_pc (c : Config) : (State.boot c).pc = 0 := rfl
@[simp] theorem State.boot_mem (c : Config) : (State.boot c).mem = [] := rfl
@[simp] theorem State.boot_tcur0 (c : Config) : (State.boot c).tcur0 = 0 := rfl
@[simp] theorem State.boot_tcur1 (c : Config) : (State.boot c).tcur1 = 0 := rfl
@[simp] theorem State.boot_status (c : Config) : (State.boot c).status = .running := rfl
@[simp] theorem State.boot_haltCode (c : Config) : (State.boot c).haltCode = 0 := rfl
@[simp] theorem State.boot_faultCause (c : Config) : (State.boot c).faultCause = none := rfl
@[simp] theorem State.boot_steps (c : Config) : (State.boot c).steps = 0 := rfl
@[simp] theorem State.resetPin_eq_boot (s : State) : s.resetPin = State.boot s.cfg := rfl

/-! ### Registers -/

/-- Reading a register after a write of one (R15): the value where it is the register written and it exists. -/
theorem State.readReg_writeReg (s : State) (i j : Nat) (v : Nat) :
    (s.writeReg i v).readReg j = if j = i ∧ i < s.x.length then v else s.readReg j := by
  unfold State.readReg
  by_cases h : j = i
  · subst h
    by_cases hl : j < s.x.length <;> simp [List.getD, hl]
  · simp [List.getD, h, Ne.symm h]

/-- Register reads see only the register file. -/
theorem State.readReg_congr {s t : State} (h : t.x = s.x) (j : Nat) : t.readReg j = s.readReg j := by
  unfold State.readReg; rw [h]

/-- Memory reads see only the memory and the parameters. -/
theorem State.readMem_congr {s t : State} (hc : t.cfg = s.cfg) (h : t.mem = s.mem) (a : Nat) :
    t.readMem a = s.readMem a := by
  unfold State.readMem; rw [hc, h]

end Sys2Proof.Machine
end

