-- ==== Sys2Proof/Laws/Memory.lean ====
section
/-! SUPPORT. Data memory: read after write, and the canonical form kept by every write (spec 20_memory.md R78). -/

namespace Sys2Proof.Machine

open Sys2Proof

theorem lookup_insertCell (i j : Nat) (v : Nat) (m : Memory) (h : ∀ p ∈ m, p.1 ≠ i) :
    lookup j (insertCell i v m) = if j = i then some v else lookup j m := by
  induction m with
  | nil => simp [insertCell, lookup]
  | cons p t ih =>
    obtain ⟨k, w⟩ := p
    have hk : k ≠ i := h (k, w) (by simp)
    have ht := ih fun p hp => h p (by simp [hp])
    by_cases hik : i < k
    · simp [insertCell, hik, lookup]
    · by_cases hjk : j = k
      · subst hjk; simp [insertCell, hik, lookup, hk]
      · simp [insertCell, hik, lookup, hjk, ht]

theorem lookup_filter_ne (i j : Nat) (m : Memory) :
    lookup j (m.filter fun p => decide (p.1 ≠ i)) = if j = i then none else lookup j m := by
  induction m with
  | nil => simp [lookup]
  | cons p t ih =>
    obtain ⟨k, w⟩ := p
    by_cases hk : k = i
    · subst hk
      by_cases hj : j = k <;> simp_all [lookup]
    · by_cases hj : j = k
      · subst hj; simp [lookup, hk]
      · by_cases hji : j = i <;> simp_all [lookup]

/-- Reading after a write: the written word gives the value written, every other word is as before. -/
theorem memRead_memWrite (c : Config) (m : Memory) (i j : Nat) (v : Nat) :
    memRead c (memWrite c m i v) j = if j = i then v else memRead c m j := by
  unfold memRead memWrite
  by_cases hv : v = initWord c i
  · rw [if_pos hv, lookup_filter_ne]
    by_cases hj : j = i <;> simp [hj, hv]
  · rw [if_neg hv, lookup_insertCell _ _ _ _ (by simp), lookup_filter_ne]
    by_cases hj : j = i <;> simp [hj]

theorem State.readMem_writeMem (s : State) (i j : Nat) (v : Nat) :
    (s.writeMem i v).readMem j = if j = i then v else s.readMem j :=
  memRead_memWrite s.cfg s.mem i j v

theorem mem_insertCell {i : Nat} {v : Nat} {m : Memory} {p : Nat × Nat}
    (h : p ∈ insertCell i v m) : p = (i, v) ∨ p ∈ m := by
  induction m with
  | nil => simpa [insertCell] using h
  | cons q t ih =>
    unfold insertCell at h
    split at h
    · simpa using h
    · rcases List.mem_cons.1 h with h | h
      · exact .inr (by simp [h])
      · rcases ih h with h | h
        · exact .inl h
        · exact .inr (by simp [h])

/-- What a write lists: the pair written, or one that was there. -/
theorem mem_memWrite {c : Config} {m : Memory} {i : Nat} {v : Nat} {p : Nat × Nat}
    (h : p ∈ memWrite c m i v) : p = (i, v) ∨ p ∈ m := by
  simp only [memWrite] at h
  split at h
  · exact .inr (List.mem_filter.1 h).1
  · rcases mem_insertCell h with h | h
    · exact .inl h
    · exact .inr (List.mem_filter.1 h).1

/-- `risingFrom` as a pairwise order, the form that filtering keeps. -/
theorem risingFrom_iff (m : Memory) : risingFrom m = true ↔ m.Pairwise fun p q => p.1 < q.1 := by
  induction m with
  | nil => simp [risingFrom]
  | cons p t ih =>
    cases t with
    | nil => simp [risingFrom]
    | cons q u =>
      simp only [risingFrom, Bool.and_eq_true, decide_eq_true_eq, ih]
      constructor
      · rintro ⟨hpq, hq⟩
        refine List.pairwise_cons.2 ⟨fun r hr => ?_, hq⟩
        rcases List.mem_cons.1 hr with rfl | hr
        · exact hpq
        · exact Nat.lt_trans hpq ((List.pairwise_cons.1 hq).1 r hr)
      · exact fun h => ⟨(List.pairwise_cons.1 h).1 q (by simp), (List.pairwise_cons.1 h).2⟩

theorem insertCell_pairwise {i : Nat} {v : Nat} {m : Memory} (hne : ∀ p ∈ m, p.1 ≠ i)
    (h : m.Pairwise fun p q => p.1 < q.1) : (insertCell i v m).Pairwise fun p q => p.1 < q.1 := by
  induction m with
  | nil => simp [insertCell]
  | cons q t ih =>
    obtain ⟨hq, ht⟩ := List.pairwise_cons.1 h
    have hqi : q.1 ≠ i := hne q (by simp)
    unfold insertCell
    split
    · rename_i hlt
      refine List.pairwise_cons.2 ⟨fun r hr => ?_, h⟩
      rcases List.mem_cons.1 hr with rfl | hr
      · exact hlt
      · exact Nat.lt_trans hlt (hq r hr)
    · rename_i hge
      refine List.pairwise_cons.2 ⟨fun r hr => ?_, ih (fun p hp => hne p (by simp [hp])) ht⟩
      rcases mem_insertCell hr with rfl | hr
      · exact lt_of_le_of_ne (Nat.le_of_not_lt hge) hqi
      · exact hq r hr

/-- Every write keeps the canonical form. -/
theorem memWrite_wf {c : Config} {m : Memory} (i : Nat) (v : Nat) (h : Memory.wf c m = true) :
    Memory.wf c (memWrite c m i v) = true := by
  simp only [Memory.wf, Bool.and_eq_true, risingFrom_iff, List.all_eq_true, decide_eq_true_eq] at h ⊢
  obtain ⟨hs, hd⟩ := h
  have hf := hs.filter (fun p => decide (p.1 ≠ i))
  refine ⟨?_, fun p hp => ?_⟩
  · simp only [memWrite]
    split
    · exact hf
    · exact insertCell_pairwise (by simp) hf
  · simp only [memWrite] at hp
    split at hp
    · exact hd p (List.mem_filter.1 hp).1
    · rename_i hv
      rcases mem_insertCell hp with rfl | hp
      · exact hv
      · exact hd p (List.mem_filter.1 hp).1

/-- The memory of `State.reset`, and of every reset, is canonical. -/
theorem boot_mem_wf (c : Config) : Memory.wf c (State.boot c).mem = true := rfl

end Sys2Proof.Machine
end

