-- ==== Sys2Proof/Laws/Exec.lean ====
section
/-! SUPPORT. Everything a meaning can answer, said once: an instruction completes with the effects listed in
`Completes`, or it enters a fault, or it is `answer` and halts. Later proofs cite `exec_cases` and do not
unfold the meanings. -/

namespace Sys2Proof.Machine

open Sys2Proof

/-! ### The shared operations -/

/-- A word written back: the next state is the written one, advanced. -/
theorem writeBack_eq (s : State) (rd v : Nat) (f : Bool) :
    writeBack s rd v f = .next ((s.writeReg rd v).setFlag f).advance := rfl

theorem raise_eq (f : Fault) (s : State) : raise f s = .next (s.enterFault f) := rfl

theorem enterFault_eq_faultedState (s : State) (f : Fault) : s.enterFault f = faultedState s f := rfl

/-- The three ends of a store: out of bounds, read-only, or the word written. -/
theorem storeWord_cases (s : State) (widx v : Nat) :
    (s.cfg.memWords ≤ widx ∧ storeWord s widx v = .next (s.enterFault .memOutOfBounds)) ∨
    (widx < s.cfg.memWords ∧ widx < roLimit s.cfg ∧
      storeWord s widx v = .next (s.enterFault .memReadOnly)) ∨
    (widx < s.cfg.memWords ∧ roLimit s.cfg ≤ widx ∧
      storeWord s widx v = .next (s.writeMem widx v).advance) := by
  unfold storeWord
  by_cases h1 : s.cfg.memWords ≤ widx
  · exact .inl ⟨h1, by simp [h1, raise_eq]⟩
  · by_cases h2 : widx < roLimit s.cfg
    · exact .inr (.inl ⟨by omega, h2, by simp [h1, h2, raise_eq]⟩)
    · exact .inr (.inr ⟨by omega, by omega, by simp [h1, h2]⟩)

/-- A store that passes both checks is the one the write port carries. -/
theorem checkedWrite_some {s : State} {widx v : Nat} (h1 : widx < s.cfg.memWords)
    (h2 : roLimit s.cfg ≤ widx) : checkedWrite s widx v = some (widx, v) := by
  simp [checkedWrite, h1, h2]

/-! ### The register file and the operands -/

theorem regsOk_iff (s : State) :
    s.regsOk = true ↔ s.x.length = s.cfg.K ∧ ∀ v ∈ s.x, v < 2 ^ s.cfg.W := by
  simp [State.regsOk]

/-- Every register read gives a W-bit word. -/
theorem readReg_lt {s : State} (h : s.regsOk = true) (j : Nat) : s.readReg j < 2 ^ s.cfg.W := by
  obtain ⟨-, hf⟩ := (regsOk_iff s).1 h
  unfold State.readReg
  rw [List.getD_eq_getElem?_getD]
  cases hj : s.x[j]? with
  | none => simp
  | some v => exact hf v (List.mem_of_getElem? hj)

/-- Every well-formed operand has a W-bit value (R102). -/
theorem operandValue_lt {s : State} {b : Operand} (h : s.regsOk = true) (hb : b.wf s.cfg = true) :
    operandValue s b < 2 ^ s.cfg.W := by
  cases b with
  | reg r => exact readReg_lt h r
  | imm v => simpa [Operand.wf, operandValue] using hb

/-- A write back to an existing register is the frame `WritesRegister`. -/
theorem writesRegister_writeBack {s : State} {rd v : Nat} {f : Bool} (h : rd < s.x.length) :
    WritesRegister s ((s.writeReg rd v).setFlag f).advance rd v f where
  value := (State.readReg_writeReg s rd rd v).trans (by simp [h])
  otherRegs j hj := (State.readReg_writeReg s rd j v).trans (by simp [hj])
  regCount := by simp
  flagValue := rfl
  pcNext := rfl
  counted := rfl
  memory _ := rfl
  rest := rfl

/-- A register write keeps the shape of the register file. -/
theorem regsOk_writeReg {s : State} {rd v : Nat} (h : s.regsOk = true) (hv : v < 2 ^ s.cfg.W) :
    (s.writeReg rd v).regsOk = true := by
  rw [regsOk_iff] at h ⊢
  refine ⟨by simpa using h.1, fun w hw => ?_⟩
  rcases List.mem_or_eq_of_mem_set hw with hw | rfl
  · exact h.2 w hw
  · exact hv

/-- The shape of the register file depends on the registers and the parameters alone. -/
theorem regsOk_congr {s t : State} (hc : t.cfg = s.cfg) (hx : t.x = s.x) (h : s.regsOk = true) :
    t.regsOk = true := by
  unfold State.regsOk; rw [hc, hx]; exact h

/-! ### What completing leaves -/

/-- What every completed instruction but `answer` leaves (R30, R40, R48, R54, R104, R211). -/
structure Completes (i : Instr) (s t : State) : Prop where
  cfg : t.cfg = s.cfg
  status : t.status = s.status
  haltCode : t.haltCode = s.haltCode
  faultCause : t.faultCause = s.faultCause
  steps : t.steps = s.steps + 1
  pc : t.pc = pcMux s i
  regCount : t.x.length = s.x.length
  otherRegs : ∀ j, destinationOf i ≠ some j → t.readReg j = s.readReg j
  mem : t.mem = (match storePort s i with
    | some p => memWrite s.cfg s.mem p.1 p.2
    | none => s.mem)
  tcur0 : t.tcur0 = s.tcur0 ∨ t.tcur0 = s.tcur0 + 1 ∧ s.tcur0 < s.cfg.tape0.length ∧
    ∃ rd b, i = .read rd b ∧ operandValue s b = 0
  tcur1 : t.tcur1 = s.tcur1 ∨ t.tcur1 = s.tcur1 + 1 ∧ s.tcur1 < s.cfg.tape1.length ∧
    ∃ rd b, i = .read rd b ∧ operandValue s b = 1

/-- Every instruction that writes one register and the flag, and no memory and no cursor. -/
theorem completes_writeBack {i : Instr} {s : State} {rd v : Nat} {f : Bool}
    (hd : destinationOf i = some rd) (hp : pcMux s i = seqPc s) (hm : storePort s i = none) :
    Completes i s ((s.writeReg rd v).setFlag f).advance where
  cfg := rfl
  status := rfl
  haltCode := rfl
  faultCause := rfl
  steps := rfl
  pc := hp.symm
  regCount := by simp
  otherRegs j hj := by
    have hne : j ≠ rd := by rintro rfl; exact hj hd
    exact (State.readReg_writeReg s rd j v).trans (by simp [hne])
  mem := by rw [hm]; rfl
  tcur0 := .inl rfl
  tcur1 := .inl rfl

/-- Every instruction that changes at most the flag, `pc` and `STEPS`. -/
theorem completes_flag {i : Instr} {s : State} {f : Bool} (hp : pcMux s i = seqPc s)
    (hm : storePort s i = none) : Completes i s (s.setFlag f).advance where
  cfg := rfl
  status := rfl
  haltCode := rfl
  faultCause := rfl
  steps := rfl
  pc := hp.symm
  regCount := rfl
  otherRegs _ _ := rfl
  mem := by rw [hm]; rfl
  tcur0 := .inl rfl
  tcur1 := .inl rfl

/-- Every jump. -/
theorem completes_jump {i : Instr} {s : State} {target : Nat} (hp : pcMux s i = target)
    (hm : storePort s i = none) : Completes i s (s.complete target) where
  cfg := rfl
  status := rfl
  haltCode := rfl
  faultCause := rfl
  steps := rfl
  pc := hp.symm
  regCount := rfl
  otherRegs _ _ := rfl
  mem := by rw [hm]; rfl
  tcur0 := .inl rfl
  tcur1 := .inl rfl

/-- Every store that passed its checks. -/
theorem completes_store {i : Instr} {s : State} {widx v : Nat} (hp : pcMux s i = seqPc s)
    (hm : storePort s i = some (widx, v)) : Completes i s (s.writeMem widx v).advance where
  cfg := rfl
  status := rfl
  haltCode := rfl
  faultCause := rfl
  steps := rfl
  pc := hp.symm
  regCount := rfl
  otherRegs _ _ := rfl
  mem := by rw [hm]; rfl
  tcur0 := .inl rfl
  tcur1 := .inl rfl

/-! ### The tapes -/

/-- A delivered word is an unread one of tape 0 or 1 (R211). -/
theorem tapeHead_some {s : State} {t w : Nat} (h : s.tapeHead t = some w) :
    t = 0 ∧ s.tcur0 < s.cfg.tape0.length ∧ s.cfg.tape0[s.tcur0]? = some w ∨
    t = 1 ∧ s.tcur1 < s.cfg.tape1.length ∧ s.cfg.tape1[s.tcur1]? = some w := by
  unfold State.tapeHead State.cursor tapeOf at h
  split at h
  · exact .inl ⟨rfl, (List.getElem?_eq_some_iff.1 h).1, h⟩
  · exact .inr ⟨rfl, (List.getElem?_eq_some_iff.1 h).1, h⟩
  · simp at h

/-- Every `read` that found a word. -/
theorem completes_read {s : State} {rd w : Nat} {b : Operand} {f : Bool}
    (h : s.tapeHead (operandValue s b) = some w) :
    Completes (.read rd b) s
      (((s.bumpCursor (operandValue s b)).writeReg rd w).setFlag f).advance where
  cfg := by simp
  status := by simp
  haltCode := by simp
  faultCause := by simp
  steps := by simp
  pc := by simp [pcMux, seqPc]
  regCount := by simp
  otherRegs j hj := by
    have hne : j ≠ rd := by rintro rfl; exact hj rfl
    refine (State.readReg_writeReg _ rd j w).trans ?_
    rw [if_neg (by simp [hne])]
    exact State.readReg_congr (State.bumpCursor_x s _) j
  mem := by simp [storePort]
  tcur0 := by
    rcases tapeHead_some h with ⟨h0, hl, -⟩ | ⟨h0, -, -⟩
    · exact .inr ⟨by simp [State.bumpCursor_tcur0, h0], hl, rd, b, rfl, h0⟩
    · exact .inl (by simp [State.bumpCursor_tcur0, h0])
  tcur1 := by
    rcases tapeHead_some h with ⟨h0, -, -⟩ | ⟨h0, hl, -⟩
    · exact .inl (by simp [State.bumpCursor_tcur1, h0])
    · exact .inr ⟨by simp [State.bumpCursor_tcur1, h0], hl, rd, b, rfl, h0⟩

/-! ### Every answer of every meaning -/

/-- The three ends of `store`. -/
theorem execStore_cases {s t : State} {dest : Operand} {rs : Nat} (h : execStore dest rs s = .next t) :
    Completes (.store dest rs) s t ∨ ∃ f, t = s.enterFault f := by
  unfold execStore at h
  rcases storeWord_cases s (operandValue s dest) (s.readReg rs) with ⟨-, he⟩ | ⟨-, -, he⟩ | ⟨h1, h2, he⟩ <;>
    rw [he] at h <;> cases h
  · exact .inr ⟨_, rfl⟩
  · exact .inr ⟨_, rfl⟩
  · exact .inl (completes_store rfl (checkedWrite_some h1 h2))

/-- The four ends of `store.w`. -/
theorem execStoreW_cases {s t : State} {dest : Operand} {rs : Nat} (h : execStoreW dest rs s = .next t) :
    Completes (.storeW dest rs) s t ∨ ∃ f, t = s.enterFault f := by
  simp only [execStoreW] at h
  by_cases ha : byteOffsetAligned s.cfg (operandValue s dest) = true
  · rw [if_pos ha] at h
    rcases storeWord_cases s (byteOffsetIndex s.cfg (operandValue s dest)) (s.readReg rs) with
      ⟨-, he⟩ | ⟨-, -, he⟩ | ⟨h1, h2, he⟩ <;> rw [he] at h <;> cases h
    · exact .inr ⟨_, rfl⟩
    · exact .inr ⟨_, rfl⟩
    · exact .inl (completes_store rfl (by simp only [storePort, ha, if_true]; exact checkedWrite_some h1 h2))
  · rw [if_neg ha] at h
    cases h
    exact .inr ⟨_, rfl⟩

/-- The two ends of `umod`. -/
theorem execUmod_cases {s t : State} {rd ra : Nat} {src : Operand} (h : execUmod rd ra src s = .next t) :
    Completes (.umod rd ra src) s t ∨ ∃ f, t = s.enterFault f := by
  simp only [execUmod] at h
  split at h
  · cases h
    exact .inr ⟨_, rfl⟩
  · cases h
    exact .inl (completes_writeBack rfl rfl rfl)

/-- The two ends of `read`. -/
theorem execRead_cases {s t : State} {rd : Nat} {b : Operand} (h : execRead rd b s = .next t) :
    Completes (.read rd b) s t := by
  simp only [execRead] at h
  split at h
  · rename_i w hw
    cases h
    exact completes_read hw
  · cases h
    exact completes_writeBack rfl rfl rfl

/-- Everything an instruction that answers a next state can have done. -/
theorem exec_cases {i : Instr} {s t : State} (h : exec i s = .next t) :
    Completes i s t ∨ (∃ f, t = s.enterFault f) ∨
      ∃ code, i = .answer code ∧ t = s.halt (operandValue s code) := by
  cases i with
  | umod rd ra src => exact (execUmod_cases h).elim .inl (fun h => .inr (.inl h))
  | store dest rs => exact (execStore_cases h).elim .inl (fun h => .inr (.inl h))
  | storeW dest rs => exact (execStoreW_cases h).elim .inl (fun h => .inr (.inl h))
  | read rd b => exact .inl (execRead_cases h)
  | answer code => cases h; exact .inr (.inr ⟨code, rfl, rfl⟩)
  | cmpe ra src => cases h; exact .inl (completes_flag rfl rfl)
  | cmpa ra src => cases h; exact .inl (completes_flag rfl rfl)
  | cmpae ra src => cases h; exact .inl (completes_flag rfl rfl)
  | jmp b => cases h; exact .inl (completes_jump rfl rfl)
  | cjmp b => cases h; exact .inl (completes_jump rfl rfl)
  | cnjmp b => cases h; exact .inl (completes_jump rfl rfl)
  | mov rd src => cases h; exact .inl (completes_writeBack (f := s.flag) rfl rfl rfl)
  | and rd ra src => cases h; exact .inl (completes_writeBack rfl rfl rfl)
  | or rd ra src => cases h; exact .inl (completes_writeBack rfl rfl rfl)
  | xor rd ra src => cases h; exact .inl (completes_writeBack rfl rfl rfl)
  | not rd src => cases h; exact .inl (completes_writeBack rfl rfl rfl)
  | add rd ra src => cases h; exact .inl (completes_writeBack rfl rfl rfl)
  | sub rd ra src => cases h; exact .inl (completes_writeBack rfl rfl rfl)
  | mull rd ra src => cases h; exact .inl (completes_writeBack rfl rfl rfl)
  | umulh rd ra src => cases h; exact .inl (completes_writeBack rfl rfl rfl)
  | shl rd ra src => cases h; exact .inl (completes_writeBack rfl rfl rfl)
  | shr rd ra src => cases h; exact .inl (completes_writeBack rfl rfl rfl)

/-- Every meaning answers a next state, in every state. -/
theorem exec_answers (i : Instr) (s : State) : ∃ t, exec i s = .next t := by
  cases i with
  | umod rd ra src =>
    show ∃ t, execUmod rd ra src s = .next t
    simp only [execUmod]; split <;> exact ⟨_, rfl⟩
  | store dest rs =>
    show ∃ t, storeWord s (operandValue s dest) (s.readReg rs) = .next t
    rcases storeWord_cases s (operandValue s dest) (s.readReg rs) with ⟨-, he⟩ | ⟨-, -, he⟩ | ⟨-, -, he⟩ <;>
      exact ⟨_, he⟩
  | storeW dest rs =>
    show ∃ t, execStoreW dest rs s = .next t
    simp only [execStoreW]
    split
    · rcases storeWord_cases s (byteOffsetIndex s.cfg (operandValue s dest)) (s.readReg rs) with
        ⟨-, he⟩ | ⟨-, -, he⟩ | ⟨-, -, he⟩ <;> exact ⟨_, he⟩
    · exact ⟨_, rfl⟩
  | read rd b =>
    show ∃ t, execRead rd b s = .next t
    simp only [execRead]; split <;> exact ⟨_, rfl⟩
  | _ => exact ⟨_, rfl⟩

end Sys2Proof.Machine
end

