-- ==== Sys2Proof/Laws/PerInstr.lean ====
section
/-! SUPPORT. Facts of every instruction as syntax, one lemma per constructor: its fields fit the instruction
word (spec 30_encoding.md R100, R101). -/

namespace Sys2Proof.Laws.FieldsFit

open Sys2Proof Sys2Proof.Machine

/-- In every configuration that has the instruction, its opcode fits 5 bits, its register fields 4 bits, and
its operand field W bits. -/
def Statement (i : Instr) : Prop :=
  ∀ c : Config, configOk c = true → i.wf c = true →
    opcodeOf i < 32 ∧ riOf i < 16 ∧ rjOf i < 16 ∧ operandA (operandOf i) < 2 ^ c.W

/-- The three-operand form. -/
theorem of_form3 {c : Config} {d a : Nat} {b : Operand} (hc : configOk c = true)
    (h : (decide (d < c.K) && decide (a < c.K) && b.wf c) = true) :
    d < 16 ∧ a < 16 ∧ operandA b < 2 ^ c.W := by
  simp only [Bool.and_eq_true, decide_eq_true_eq] at h
  have := configOk_bounds hc
  exact ⟨by omega, by omega, operandA_lt hc h.2⟩

/-- The forms with one register field. -/
theorem of_form1 {c : Config} {d : Nat} {b : Operand} (hc : configOk c = true)
    (h : (decide (d < c.K) && b.wf c) = true) : d < 16 ∧ operandA b < 2 ^ c.W := by
  simp only [Bool.and_eq_true, decide_eq_true_eq] at h
  have := configOk_bounds hc
  exact ⟨by omega, operandA_lt hc h.2⟩

theorem and (rd ra : Nat) (src : Operand) : Statement (.and rd ra src) := fun _ hc h =>
  ⟨opcodeOf_lt _, (of_form3 hc h).1, (of_form3 hc h).2.1, (of_form3 hc h).2.2⟩

theorem or (rd ra : Nat) (src : Operand) : Statement (.or rd ra src) := fun _ hc h =>
  ⟨opcodeOf_lt _, (of_form3 hc h).1, (of_form3 hc h).2.1, (of_form3 hc h).2.2⟩

theorem xor (rd ra : Nat) (src : Operand) : Statement (.xor rd ra src) := fun _ hc h =>
  ⟨opcodeOf_lt _, (of_form3 hc h).1, (of_form3 hc h).2.1, (of_form3 hc h).2.2⟩

theorem add (rd ra : Nat) (src : Operand) : Statement (.add rd ra src) := fun _ hc h =>
  ⟨opcodeOf_lt _, (of_form3 hc h).1, (of_form3 hc h).2.1, (of_form3 hc h).2.2⟩

theorem sub (rd ra : Nat) (src : Operand) : Statement (.sub rd ra src) := fun _ hc h =>
  ⟨opcodeOf_lt _, (of_form3 hc h).1, (of_form3 hc h).2.1, (of_form3 hc h).2.2⟩

theorem mull (rd ra : Nat) (src : Operand) : Statement (.mull rd ra src) := fun _ hc h =>
  ⟨opcodeOf_lt _, (of_form3 hc h).1, (of_form3 hc h).2.1, (of_form3 hc h).2.2⟩

theorem umulh (rd ra : Nat) (src : Operand) : Statement (.umulh rd ra src) := fun _ hc h =>
  ⟨opcodeOf_lt _, (of_form3 hc h).1, (of_form3 hc h).2.1, (of_form3 hc h).2.2⟩

theorem umod (rd ra : Nat) (src : Operand) : Statement (.umod rd ra src) := fun _ hc h =>
  ⟨opcodeOf_lt _, (of_form3 hc h).1, (of_form3 hc h).2.1, (of_form3 hc h).2.2⟩

theorem shl (rd ra : Nat) (src : Operand) : Statement (.shl rd ra src) := fun _ hc h =>
  ⟨opcodeOf_lt _, (of_form3 hc h).1, (of_form3 hc h).2.1, (of_form3 hc h).2.2⟩

theorem shr (rd ra : Nat) (src : Operand) : Statement (.shr rd ra src) := fun _ hc h =>
  ⟨opcodeOf_lt _, (of_form3 hc h).1, (of_form3 hc h).2.1, (of_form3 hc h).2.2⟩

theorem not (rd : Nat) (src : Operand) : Statement (.not rd src) := fun _ hc h =>
  ⟨opcodeOf_lt _, (of_form1 hc h).1, by simp [rjOf], (of_form1 hc h).2⟩

theorem mov (rd : Nat) (src : Operand) : Statement (.mov rd src) := fun _ hc h =>
  ⟨opcodeOf_lt _, (of_form1 hc h).1, by simp [rjOf], (of_form1 hc h).2⟩

theorem read (rd : Nat) (src : Operand) : Statement (.read rd src) := fun _ hc h =>
  ⟨opcodeOf_lt _, (of_form1 hc h).1, by simp [rjOf], (of_form1 hc h).2⟩

theorem cmpe (ra : Nat) (src : Operand) : Statement (.cmpe ra src) := fun _ hc h =>
  ⟨opcodeOf_lt _, by simp [riOf], (of_form1 hc h).1, (of_form1 hc h).2⟩

theorem cmpa (ra : Nat) (src : Operand) : Statement (.cmpa ra src) := fun _ hc h =>
  ⟨opcodeOf_lt _, by simp [riOf], (of_form1 hc h).1, (of_form1 hc h).2⟩

theorem cmpae (ra : Nat) (src : Operand) : Statement (.cmpae ra src) := fun _ hc h =>
  ⟨opcodeOf_lt _, by simp [riOf], (of_form1 hc h).1, (of_form1 hc h).2⟩

theorem jmp (src : Operand) : Statement (.jmp src) := fun _ hc h =>
  ⟨opcodeOf_lt _, by simp [riOf], by simp [rjOf], operandA_lt hc h⟩

theorem cjmp (src : Operand) : Statement (.cjmp src) := fun _ hc h =>
  ⟨opcodeOf_lt _, by simp [riOf], by simp [rjOf], operandA_lt hc h⟩

theorem answer (src : Operand) : Statement (.answer src) := fun _ hc h =>
  ⟨opcodeOf_lt _, by simp [riOf], by simp [rjOf], operandA_lt hc h⟩

theorem cnjmp (src : Operand) : Statement (.cnjmp src) := fun c hc h =>
  ⟨opcodeOf_lt _, by simp [riOf], by simp [rjOf],
    operandA_lt hc (by simp only [Instr.wf, Bool.and_eq_true] at h; exact h.2)⟩

theorem store (dest : Operand) (rs : Nat) : Statement (.store dest rs) := fun _ hc h =>
  ⟨opcodeOf_lt _, (of_form1 hc h).1, by simp [rjOf], (of_form1 hc h).2⟩

theorem storeW (dest : Operand) (rs : Nat) : Statement (.storeW dest rs) := fun c hc h => by
  have h' : (decide (rs < c.K) && dest.wf c) = true := by
    simp only [Instr.wf, Bool.and_eq_true] at h ⊢
    exact ⟨h.1.2, h.2⟩
  exact ⟨opcodeOf_lt _, (of_form1 hc h').1, by simp [rjOf], (of_form1 hc h').2⟩

end Sys2Proof.Laws.FieldsFit
end

