-- ==== Sys2Proof/Laws/Step.lean ====
section
/-! SUPPORT. Everything a step can do, said once (spec 10_state.md R50), and that a placed word is the one the
next step fetches. -/

namespace Sys2Proof.Machine

open Sys2Proof

/-- A decoded instruction: the step limit is not reached, a word stands at `pc`, and it decodes to it. -/
theorem fetchDecode_ok {s : State} {i : Instr} (h : fetchDecode s = .ok i) :
    stepLimitReached s = false ∧ ∃ iw, s.cfg.prog[s.pc]? = some iw ∧ decode s.cfg iw = .ok i := by
  unfold fetchDecode at h
  split at h
  · cases h
  · rename_i hl
    split at h
    · cases h
    · rename_i iw hf
      split at h
      · cases h
      · rename_i j hd
        cases h
        exact ⟨by simpa using hl, iw, hf, hd⟩

/-- A decoded instruction is an instruction of the configuration. -/
theorem fetchDecode_wf {s : State} {i : Instr} (h : fetchDecode s = .ok i) : i.wf s.cfg = true := by
  obtain ⟨-, iw, -, hd⟩ := fetchDecode_ok h
  exact (decode_ok hd).1

/-- Everything a step that answers a next state can have done. -/
theorem step_cases {s t : State} (h : step s = .next t) :
    configOk s.cfg = true ∧
    ((s.status ≠ .running ∧ t = s) ∨
      s.status = .running ∧
        ((∃ f, fetchDecode s = .error f ∧ t = s.enterFault f) ∨
          ∃ i, fetchDecode s = .ok i ∧ exec i s = .next t)) := by
  unfold step at h
  split at h
  · cases h
  · rename_i hc
    refine ⟨by simpa using hc, ?_⟩
    cases hs : s.status with
    | halted => rw [hs] at h; cases h; exact .inl ⟨by simp, rfl⟩
    | faulted => rw [hs] at h; cases h; exact .inl ⟨by simp, rfl⟩
    | running =>
      rw [hs] at h
      refine .inr ⟨rfl, ?_⟩
      dsimp only at h
      split at h
      · rename_i f hf
        cases h
        exact .inl ⟨f, hf, rfl⟩
      · rename_i i hi
        exact .inr ⟨i, hi, h⟩

/-- Everything a step of a running core can have done: it faulted, it completed an instruction, or it halted. -/
theorem step_running_cases {s t : State} (hr : s.status = .running) (h : step s = .next t) :
    (∃ f, t = s.enterFault f) ∨
    (∃ i, fetchDecode s = .ok i ∧ exec i s = .next t ∧ Completes i s t) ∨
    ∃ code, fetchDecode s = .ok (.answer code) ∧ t = s.halt (operandValue s code) := by
  rcases (step_cases h).2 with ⟨hn, -⟩ | ⟨-, ⟨f, -, rfl⟩ | ⟨i, hi, he⟩⟩
  · exact absurd hr hn
  · exact .inl ⟨f, rfl⟩
  · rcases exec_cases he with hc | ⟨f, rfl⟩ | ⟨code, rfl, rfl⟩
    · exact .inr (.inl ⟨i, hi, he, hc⟩)
    · exact .inl ⟨f, rfl⟩
    · exact .inr (.inr ⟨code, hi, rfl⟩)

/-- A running core whose word decodes takes the step of that instruction. -/
theorem step_of_fetchDecode {s : State} {i : Instr} (hc : configOk s.cfg = true)
    (hr : s.status = .running) (h : fetchDecode s = .ok i) : step s = exec i s := by
  unfold step; rw [hr, h]; simp [hc]

/-- A running core whose fetch or decode faults takes that fault. -/
theorem step_of_fetchDecode_error {s : State} {f : Fault} (hc : configOk s.cfg = true)
    (hr : s.status = .running) (h : fetchDecode s = .error f) : step s = .next (s.enterFault f) := by
  unfold step; rw [hr, h]; simp [hc, raise_eq]

/-- A core that is not running stays as it is. -/
theorem step_of_stopped {s : State} (hc : configOk s.cfg = true) (hr : s.status ≠ .running) :
    step s = .next s := by
  unfold step
  cases hs : s.status <;> simp_all

/-- A placed word stands where it was placed. -/
theorem placeWord_get (prog : List Nat) (k iw : Nat) : (placeWord prog k iw)[k]? = some iw := by
  unfold placeWord
  have hl : (prog.take k ++ List.replicate (k - prog.length) 0).length = k := by
    simp only [List.length_append, List.length_take, List.length_replicate]; omega
  rw [List.getElem?_append_right (by omega), hl]
  simp

/-- The next step fetches the word placed at `pc`. -/
theorem fetchWord_withWordAtPc (s : State) (iw : Nat) : fetchWord (withWordAtPc s iw) = some iw :=
  placeWord_get s.cfg.prog s.pc iw

end Sys2Proof.Machine
end

