-- ==== Sys2Proof/Tests/Slice0.lean ====
section
/-! SUPPORT. Small tests of one step each. Expected values are the worked examples and tables of spec
95_test_vectors.md and of the instruction rules, not the model's own answers. The last part gives, for every
statement with hypotheses, a state and operands that meet them all together. -/

namespace Sys2Proof.Tests

open Sys2Proof Sys2Proof.Machine

/-! ### Helpers -/

/-- A core at W = 8, K = 3 with one instruction word, registers `x` and a flag (conventions of 95). -/
def at8 (iw : Nat) (x : List Nat) (flag : Bool) : State :=
  { State.boot { Config.base with prog := [iw] } with x := x, flag := flag }

/-- The same word at index `pc`. -/
def at8pc (pc iw : Nat) (x : List Nat) (flag : Bool) : State :=
  { State.boot { Config.base with prog := placeWord [] pc iw } with x := x, flag := flag, pc := pc }

/-- A core at another width, K = 5. -/
def atW (W iw : Nat) (x : List Nat) : State :=
  { State.boot { Config.base with W := W, K := 5, prog := [iw] } with x := x }

/-- The hv configuration of table V8 at W = 64. -/
def hv64 (iw : Nat) (x : List Nat) : State :=
  { State.boot { Config.base with
      W := 64, K := 5, memModel := .hv, memWords := 4, roWords := 1, prog := [iw] } with x := x }

/-- Two tapes and their cursors. -/
def withTapes (s : State) (a b : List Nat) (i j : Nat) : State :=
  { s with cfg := { s.cfg with tape0 := a, tape1 := b }, tcur0 := i, tcur1 := j }

/-- One step; a step that answers no next state gives the state itself. -/
def after (s : State) : State :=
  match step s with
  | .next t => t
  | .fault _ => s
  | .refused _ => s

/-- `k` steps. -/
def trace (s : State) : Nat → State
  | 0 => s
  | k + 1 => after (trace s k)

def regsFlag (s : State) : List Nat × Bool := (s.x, s.flag)
def ending (s : State) : Status × Option Fault := (s.status, s.faultCause)

/-! ### WellFormed refuses each ill-formed term -/

theorem test_wf_destination : (Instr.add 3 0 (.imm 0)).wf Config.base = false := by decide
theorem test_wf_first_source : (Instr.add 0 3 (.imm 0)).wf Config.base = false := by decide
theorem test_wf_operand_register : (Instr.add 0 0 (.reg 3)).wf Config.base = false := by decide
theorem test_wf_operand_immediate : (Instr.mov 0 (.imm 256)).wf Config.base = false := by decide
theorem test_wf_compared_register : (Instr.cmpa 3 (.imm 1)).wf Config.base = false := by decide
theorem test_wf_stored_register : (Instr.store (.imm 0) 3).wf Config.base = false := by decide
theorem test_wf_cnjmp_dialect :
    (Instr.cnjmp (.imm 1)).wf { Config.base with dialect := .v1_000 } = false := by decide
theorem test_wf_storeW_dialect :
    (Instr.storeW (.imm 1) 0).wf { Config.base with dialect := .v1_000 } = false := by decide
theorem test_wf_storeW_register : (Instr.storeW (.reg 1) 0).wf Config.base = false := by decide
theorem test_wf_storeW_register_operand :
    (Instr.storeW (.reg 1) 0).wf { Config.base with storeWMode := .operand } = true := by decide
theorem test_wf_largest : (Instr.umod 2 2 (.imm 255)).wf Config.base = true := by decide

/-! ### Decoding: every constructor, by a word of tables V1 to V9 -/

theorem test_decode_and : decode Config.base 0x048001 = .ok (.and 2 0 (.imm 1)) := by decide
theorem test_decode_or : decode Config.base 0x0C4080 = .ok (.or 1 0 (.imm 128)) := by decide
theorem test_decode_xor : decode Config.base 0x1400FF = .ok (.xor 0 0 (.imm 255)) := by decide
theorem test_decode_not : decode Config.base 0x180001 = .ok (.not 0 (.reg 1)) := by decide
theorem test_decode_add : decode Config.base 0x200402 = .ok (.add 0 1 (.reg 2)) := by decide
theorem test_decode_sub : decode Config.base 0x2C0400 = .ok (.sub 0 1 (.imm 0)) := by decide
theorem test_decode_mull : decode Config.base 0x340003 = .ok (.mull 0 0 (.imm 3)) := by decide
theorem test_decode_umulh : decode Config.base 0x3C4003 = .ok (.umulh 1 0 (.imm 3)) := by decide
theorem test_decode_umod : decode Config.base 0x548002 = .ok (.umod 2 0 (.imm 2)) := by decide
theorem test_decode_shl : decode Config.base 0x5C4001 = .ok (.shl 1 0 (.imm 1)) := by decide
theorem test_decode_shr : decode Config.base 0x600402 = .ok (.shr 0 1 (.reg 2)) := by decide
theorem test_decode_cmpe : decode Config.base 0x6C0001 = .ok (.cmpe 0 (.imm 1)) := by decide
theorem test_decode_cmpa : decode Config.base 0x700001 = .ok (.cmpa 0 (.reg 1)) := by decide
theorem test_decode_cmpae : decode Config.base 0x780402 = .ok (.cmpae 1 (.reg 2)) := by decide
theorem test_decode_mov : decode Config.base 0x9480C8 = .ok (.mov 2 (.imm 200)) := by decide
theorem test_decode_jmp : decode Config.base 0xA00001 = .ok (.jmp (.reg 1)) := by decide
theorem test_decode_cjmp : decode Config.base 0xAC000E = .ok (.cjmp (.imm 14)) := by decide
theorem test_decode_cnjmp : decode Config.base 0xB4000A = .ok (.cnjmp (.imm 10)) := by decide
theorem test_decode_store : decode Config.base 0xC48007 = .ok (.store (.imm 7) 2) := by decide
theorem test_decode_storeW : decode Config.base 0xE44003 = .ok (.storeW (.imm 3) 1) := by decide
theorem test_decode_read : decode Config.base 0xF48001 = .ok (.read 2 (.imm 1)) := by decide
theorem test_decode_answer : decode Config.base 0xFC00FF = .ok (.answer (.imm 255)) := by decide

/-- At W = 63 the fields do not fall on hex digits: header 0x3404, A = 2 (table V2). -/
theorem test_decode_w63 :
    decode { Config.base with W := 63, K := 5 } (0x3404 * 2 ^ 63 + 2) = .ok (.mull 0 1 (.imm 2)) := by
  decide

/-- At W = 4, the least width, a register operand has no high bits to check (table V6). -/
theorem test_decode_w4 : decode { Config.base with W := 4 } 0x94001 = .ok (.mov 0 (.imm 1)) := by decide

/-! ### Illegal words, each by its reason (table V10) -/

theorem test_illegal_operand_register : decode Config.base 0x000003 = .error .operandField := by decide
theorem test_illegal_operand_high_bits : decode Config.base 0x000013 = .error .operandField := by decide
theorem test_illegal_reserved_bits : decode Config.base 0x240102 = .error .reservedBits := by decide
theorem test_illegal_destination : decode Config.base 0x90C000 = .error .registerIndex := by decide
theorem test_illegal_first_source : decode Config.base 0x740C01 = .error .registerIndex := by decide
theorem test_illegal_unused_rj : decode Config.base 0x180401 = .error .unusedField := by decide
theorem test_illegal_unused_ri : decode Config.base 0x6C4001 = .error .unusedField := by decide
theorem test_illegal_storeW_register : decode Config.base 0xE04001 = .error .storeWRegister := by decide
theorem test_illegal_dialect :
    decode { Config.base with dialect := .v1_000 } 0xB4000A = .error .dialect := by decide
theorem test_illegal_reserved_opcodes :
    [0x400000, 0x480000, 0x800000, 0x880000, 0x980000, 0xB80000, 0xC80000, 0xD00000, 0xD80000, 0xE80000].map
      (decode Config.base) = List.replicate 10 (.error .reservedOpcode) := by decide

/-! ### The host's words -/

/-- Header 0x2000 alone: `add r0, r0, r0` (R101, R105). -/
theorem test_table_word : decodeTableWord 16 0x2000 = some (.add 0 0 (.reg 0)) := by decide
theorem test_table_word_runs :
    ending (after (State.reset.withFetchWord 16 0x2000)) = (.running, none) := by decide
theorem test_first_step_without_program :
    ending (after State.reset) = (.faulted, some .fetchOutOfRange) := by decide
theorem test_identity :
    identity { Config.base with W := 64, K := 5, memModel := .hv } = "; TinyRAM V=2.00 M=hv W=64 K=5" := by
  decide

/-! ### Arithmetic (table V2) -/

theorem test_add_wraps : regsFlag (after (at8 0x200402 [0, 200, 100] false)) = ([44, 200, 100], true) := by
  decide
theorem test_add_same_register : regsFlag (after (at8 0x204401 [0, 129, 0] false)) = ([0, 2, 0], true) := by
  decide
theorem test_sub_borrows : regsFlag (after (at8 0x280402 [0, 5, 6] false)) = ([255, 5, 6], true) := by decide
theorem test_sub_no_borrow : regsFlag (after (at8 0x2C04FF [0, 255, 0] true)) = ([0, 255, 0], false) := by
  decide
theorem test_mull_overflows :
    regsFlag (after (at8 0x300402 [0, 255, 255] false)) = ([1, 255, 255], true) := by decide
theorem test_mull_w63 :
    regsFlag (after (atW 63 (0x3404 * 2 ^ 63 + 2) [0, 2 ^ 62, 0, 0, 0])) =
      ([0, 2 ^ 62, 0, 0, 0], true) := by decide
theorem test_umulh_high :
    regsFlag (after (at8 0x380402 [9, 255, 255] false)) = ([254, 255, 255], true) := by decide
theorem test_umulh_w64 :
    (after (atW 64 0x38040000000000000002 [0, 2 ^ 64 - 1, 2 ^ 64 - 1, 0, 0])).x.head? =
      some 18446744073709551614 := by decide
theorem test_umod_remainder : regsFlag (after (at8 0x548002 [7, 0, 0] true)) = ([7, 0, 1], false) := by decide
theorem test_umod_zero_divisor :
    after (at8 0x500402 [3, 5, 0] true) =
      { at8 0x500402 [3, 5, 0] true with status := .faulted, faultCause := some .divideByZero } := by decide

/-! ### Shifts (table V3) -/

theorem test_shr_last_bit : regsFlag (after (at8 0x640403 [0, 180, 0] false)) = ([22, 180, 0], true) := by
  decide
theorem test_shr_past_width : regsFlag (after (at8 0x640409 [0, 255, 0] true)) = ([0, 255, 0], false) := by
  decide
theorem test_shl_full_width : regsFlag (after (at8 0x5C0408 [0, 1, 0] false)) = ([0, 1, 0], true) := by decide
theorem test_shl_one_bit_flag : regsFlag (after (at8 0x5C0402 [0, 128, 0] true)) = ([0, 128, 0], false) := by
  decide

/-! ### Bitwise (table V4) -/

theorem test_xor_bits : regsFlag (after (at8 0x100402 [0, 240, 60] false)) = ([204, 240, 60], false) := by
  decide
theorem test_xor_self : regsFlag (after (at8 0x100401 [9, 165, 0] true)) = ([0, 165, 0], false) := by decide
theorem test_and_bits : regsFlag (after (at8 0x000402 [0, 240, 60] true)) = ([48, 240, 60], false) := by
  decide
theorem test_or_bits : regsFlag (after (at8 0x080402 [0, 240, 60] true)) = ([252, 240, 60], false) := by
  decide
theorem test_not_bits : regsFlag (after (at8 0x180001 [0, 15, 0] true)) = ([240, 15, 0], false) := by decide
theorem test_not_w63 :
    (after (atW 63 (0x1C00 * 2 ^ 63) [5, 0, 0, 0, 0])).x.head? = some 9223372036854775807 := by decide

/-! ### Compares (table V5) -/

theorem test_cmpe_equal : (after (at8 0x6C0001 [1, 0, 0] false)).flag = true := by decide
theorem test_cmpe_different : (after (at8 0x6C0001 [2, 0, 0] true)).flag = false := by decide
theorem test_cmpa_unsigned : (after (at8 0x700001 [128, 127, 0] false)).flag = true := by decide
theorem test_cmpa_equal : (after (at8 0x740001 [1, 0, 0] true)).flag = false := by decide
theorem test_cmpae_equal : (after (at8 0x780402 [0, 5, 5] false)).flag = true := by decide
theorem test_cmpae_below : (after (at8 0x780402 [0, 4, 5] true)).flag = false := by decide

/-! ### Move and jumps (tables V1 and V6) -/

theorem test_mov_keeps_flag : regsFlag (after (at8pc 4 0x9480C8 [0, 0, 0] true)) = ([0, 0, 200], true) := by
  decide
theorem test_mov_pc_wraps :
    (after { State.boot { Config.base with W := 4, prog := placeWord [] 15 0x94001 } with pc := 15 }).pc = 0 := by
  decide
theorem test_jmp_register : (after (at8pc 3 0xA00001 [0, 7, 0] false)).pc = 7 := by decide
theorem test_jmp_out_of_range :
    ending (trace (at8 0xA400C8 [0, 0, 0] false) 2) = (.faulted, some .fetchOutOfRange) := by decide
theorem test_cjmp_taken : (after (at8pc 3 0xAC000E [0, 0, 0] true)).pc = 14 := by decide
theorem test_cjmp_not_taken : (after (at8pc 3 0xAC000E [0, 0, 0] false)).pc = 4 := by decide
theorem test_cnjmp_taken : (after (at8pc 4 0xB4000A [0, 0, 0] false)).pc = 10 := by decide
theorem test_cnjmp_not_taken : (after (at8pc 4 0xB4000A [0, 0, 0] true)).pc = 5 := by decide

/-! ### Tapes (table V7) -/

theorem test_read_register_selects_tape :
    regsFlag (after (withTapes (at8 0xF00000 [1, 0, 0] false) [11] [22] 0 0)) = ([22, 0, 0], false) := by decide
theorem test_read_end_of_tape :
    regsFlag (after (withTapes (at8 0xF44000 [0, 9, 0] false) [10, 20, 30] [] 3 0)) = ([0, 0, 0], true) := by
  decide

/-! ### Stores (table V8) -/

theorem test_store_last_word : (after (at8 0xC48007 [0, 0, 255] true)).mem = [(7, 255)] := by decide
theorem test_store_bounds_before_read_only :
    ending (after { State.boot { Config.base with memModel := .hv, roWords := 8, prog := [0xC40009] } with
      x := [4, 0, 0] }) = (.faulted, some .memOutOfBounds) := by decide
theorem test_storeW_byte_offset : (after (hv64 0xE4800000000000000008 [0, 0, 8, 0, 0])).mem = [(1, 8)] := by
  decide
theorem test_storeW_misaligned_first :
    ending (after (hv64 0xE4800000000000000021 [0, 0, 8, 0, 0])) = (.faulted, some .misalignedStore) := by
  decide

/-! ### Answer and the step (tables V9 and V11) -/

theorem test_answer_halts :
    after { at8pc 7 0xFC0000 [1, 2, 3] true with steps := 19 } =
      { at8pc 7 0xFC0000 [1, 2, 3] true with steps := 20, status := .halted } := by decide
theorem test_answer_register_code : (after (at8pc 2 0xF80000 [99, 0, 0] false)).haltCode = 99 := by decide
theorem test_step_limit_before_illegal :
    ending (after (State.boot { Config.base with prog := [0x400000], stepLimit := some 0 })) =
      (.faulted, some .stepLimitExceeded) := by decide
theorem test_illegal_before_divide :
    ending (after (at8 0x54C000 [0, 0, 0] false)) = (.faulted, some .illegalInstruction) := by decide
theorem test_config_refused :
    step (State.boot { Config.base with K := 17 }) = .refused .invalidConfiguration := by rfl

/-! ### Witnesses: a state and operands that meet the hypotheses of each statement -/

/-- A word that a step completes from: mid-run, memory written, one tape word read, under a step limit. -/
def midRun : State :=
  { State.boot { Config.base with
      memModel := .hv, roWords := 2, memInit := [(0, 9)], stepLimit := some 5, tape0 := [10, 20], tape1 := [30],
      prog := [0xF44000, 0xF48001, 0xC48002, 0xFC0007, 0x400000] } with
    x := [1, 10, 255], flag := true, mem := [(2, 7), (7, 1)], tcur0 := 1, steps := 4 }

/-- The state after `answer`, and the one after a fault. -/
def stopped : State := { midRun with pc := 3, status := .halted, haltCode := 7, steps := 5 }
def broken : State := { midRun with pc := 4, status := .faulted, faultCause := some .illegalInstruction }

theorem midRun_base : midRun.Inv where
  cfgOk := by decide
  regs := by decide
  pcFits := by decide
  haltCodeFits := by decide
  memCanonical := by decide
  memFits := by decide
  memWritable := by decide
  tape0Bound := by decide
  tape1Bound := by decide
  runningClean := by decide
  haltedClean := by decide
  faultedCause := by decide
  withinLimit := by intro l h; cases h; decide

/-- The same state at each of its five instructions. -/
theorem midRun_inv (k : Nat) (hk : k < 5) : State.Inv { midRun with pc := k } where
  pcFits := Nat.lt_of_lt_of_le hk (by decide : 5 ≤ 2 ^ midRun.cfg.W)
  cfgOk := midRun_base.cfgOk
  regs := midRun_base.regs
  haltCodeFits := midRun_base.haltCodeFits
  memCanonical := midRun_base.memCanonical
  memFits := midRun_base.memFits
  memWritable := midRun_base.memWritable
  tape0Bound := midRun_base.tape0Bound
  tape1Bound := midRun_base.tape1Bound
  runningClean := midRun_base.runningClean
  haltedClean := midRun_base.haltedClean
  faultedCause := midRun_base.faultedCause
  withinLimit := midRun_base.withinLimit

theorem stopped_inv : stopped.Inv where
  cfgOk := by decide
  regs := by decide
  pcFits := by decide
  haltCodeFits := by decide
  memCanonical := by decide
  memFits := by decide
  memWritable := by decide
  tape0Bound := by decide
  tape1Bound := by decide
  runningClean := by decide
  haltedClean := by decide
  faultedCause := by decide
  withinLimit := by intro l h; cases h; decide

theorem broken_inv : broken.Inv where
  cfgOk := by decide
  regs := by decide
  pcFits := by decide
  haltCodeFits := by decide
  memCanonical := by decide
  memFits := by decide
  memWritable := by decide
  tape0Bound := by decide
  tape1Bound := by decide
  runningClean := by decide
  haltedClean := by decide
  faultedCause := by decide
  withinLimit := by intro l h; cases h; decide

theorem witness_DecodeOfEncode :
    configOk Config.base = true ∧ (Instr.add 2 2 (.imm 255)).wf Config.base = true ∧
    (Instr.storeW (.reg 2) 0).wf { Config.base with storeWMode := .operand } = true := by decide

theorem witness_EncodeOfDecode :
    configOk Config.base = true ∧ 0xFC00FF < 2 ^ (16 + Config.base.W) ∧
    decode Config.base 0xFC00FF = .ok (.answer (.imm 255)) := by decide

theorem witness_LegalExactlyWhenChecksHold :
    configOk Config.base = true ∧ decode Config.base 0x000002 = .ok (.and 0 0 (.reg 2)) ∧
    decode Config.base 0x000003 = .error .operandField := by decide

theorem witness_DialectFiltersTwoOpcodes :
    decode Config.base 0xB4000A = .ok (.cnjmp (.imm 10)) ∧
    decode Config.base 0xE44003 = .ok (.storeW (.imm 3) 1) ∧
    decode Config.base 0x904002 = .ok (.mov 1 (.reg 2)) ∧
    (∀ b, Instr.mov 1 (.reg 2) ≠ .cnjmp b) ∧ ∀ b r, Instr.mov 1 (.reg 2) ≠ .storeW b r :=
  ⟨by decide, by decide, by decide, fun _ h => (by cases h), fun _ _ h => (by cases h)⟩

theorem witness_StepRunsDecodedInstruction :
    configOk midRun.cfg = true ∧ midRun.status = .running ∧
    (∀ l, midRun.cfg.stepLimit = some l → midRun.steps < l) ∧
    midRun.cfg.prog[midRun.pc]? = some 0xF44000 ∧ decode midRun.cfg 0xF44000 = .ok (.read 1 (.imm 0)) :=
  ⟨by decide, by decide, by intro l h; cases h; decide, by decide, by decide⟩

/-- At the limit; one below it and just past the program; an illegal word; a legal one. -/
theorem witness_FaultPriorityBeforeExecution :
    (configOk midRun.cfg = true ∧ midRun.status = .running) ∧
    (midRun.cfg.stepLimit = some 5 ∧ 5 ≤ { midRun with steps := 5 }.steps) ∧
    (∀ l, midRun.cfg.stepLimit = some l → midRun.steps < l) ∧
    midRun.cfg.prog.length ≤ { midRun with pc := 5 }.pc ∧
    (midRun.cfg.prog[4]? = some 0x400000 ∧ ¬ LegalWord midRun.cfg 0x400000) ∧
    (midRun.cfg.prog[3]? = some 0xFC0007 ∧ LegalWord midRun.cfg 0xFC0007) :=
  ⟨by decide, by decide, by intro l h; cases h; decide, by decide,
    ⟨by decide, by unfold LegalWord; decide⟩, ⟨by decide, by unfold LegalWord; decide⟩⟩

theorem witness_StepAlwaysAnswers :
    configOk midRun.cfg = true ∧ configOk { Config.base with W := 3 } = false := by decide

theorem witness_StoppedCoreIsFrozen :
    configOk stopped.cfg = true ∧ stopped.status ≠ .running ∧ broken.status ≠ .running ∧
    IsTrace stopped (trace stopped) 2 :=
  ⟨by decide, by decide, by decide, rfl, fun j hj => by interval_cases j <;> rfl⟩

theorem witness_ParametersNeverChange : step midRun = .next (after midRun) := rfl

theorem witness_FirstFetchIsIndexZero :
    { Config.base with prog := [0x940001, 0x240001] }.prog = 0x940001 :: [0x240001] := rfl

/-- One instruction that writes `r0`, and a `umod r1, r0, 0` that names `r1` and faults. -/
theorem witness_UnwrittenRegisterReadsZero :
    let c := { Config.base with prog := [0x940001, 0x544000] }
    IsTrace (State.boot c) (trace (State.boot c)) 2 ∧
    fetchDecode (trace (State.boot c) 1) = .ok (.umod 1 0 (.imm 0)) ∧
    ∀ j, j < 2 → ∀ i, fetchDecode (trace (State.boot c) j) = .ok i →
      (trace (State.boot c) (j + 1)).steps = (trace (State.boot c) j).steps + 1 → destinationOf i ≠ some 1 := by
  refine ⟨⟨rfl, fun j hj => by interval_cases j <;> rfl⟩, rfl, fun j hj i hi hs => ?_⟩
  interval_cases j
  · have h : fetchDecode (trace (State.boot { Config.base with prog := [0x940001, 0x544000] }) 0) =
        .ok (.mov 0 (.imm 1)) := rfl
    cases h.symm.trans hi; decide
  · exact absurd hs (by decide)

theorem witness_MovCopiesOperand : Ready midRun (.mov 2 (.imm 255)) ∧ Ready midRun (.mov 0 (.reg 2)) := by
  decide
theorem witness_AddWrapsWithCarry : Ready midRun (.add 0 2 (.imm 255)) ∧ Ready midRun (.add 0 2 (.reg 2)) := by
  decide
theorem witness_SubWrapsWithBorrow : Ready midRun (.sub 0 0 (.imm 255)) ∧ Ready midRun (.sub 0 2 (.reg 2)) := by
  decide
theorem witness_MullLowProduct : Ready midRun (.mull 0 2 (.imm 255)) ∧ Ready midRun (.mull 0 2 (.reg 2)) := by
  decide
theorem witness_UmulhHighProduct :
    Ready midRun (.umulh 0 2 (.imm 255)) ∧ Ready midRun (.umulh 0 2 (.reg 2)) := by decide
theorem witness_UmodRemainder :
    (Ready midRun (.umod 0 2 (.imm 1)) ∧ operandValue midRun (.imm 1) ≠ 0) ∧
    (Ready midRun (.umod 0 2 (.reg 2)) ∧ operandValue midRun (.reg 2) ≠ 0) := by decide
theorem witness_UmodByZeroFaults : { midRun with x := [1, 0, 2] }.readReg 1 = 0 := by decide

/-- The amounts where the cases meet: 0, 1, W and W + 1. -/
theorem witness_ShlShiftsWholeAmount :
    Ready midRun (.shl 0 2 (.imm 0)) ∧ Ready midRun (.shl 0 2 (.reg 0)) ∧ operandValue midRun (.reg 0) = 1 ∧
    Ready midRun (.shl 0 2 (.imm 8)) ∧ Ready midRun (.shl 0 2 (.imm 9)) := by decide
theorem witness_ShrShiftsWholeAmount :
    Ready midRun (.shr 0 2 (.imm 0)) ∧ Ready midRun (.shr 0 2 (.reg 0)) ∧ operandValue midRun (.reg 0) = 1 ∧
    Ready midRun (.shr 0 2 (.imm 8)) ∧ Ready midRun (.shr 0 2 (.imm 9)) := by decide

theorem witness_XorBitwise : Ready midRun (.xor 0 2 (.imm 255)) ∧ Ready midRun (.xor 0 2 (.reg 2)) := by decide
theorem witness_AndBitwise : Ready midRun (.and 0 2 (.imm 255)) ∧ Ready midRun (.and 0 2 (.reg 2)) := by decide
theorem witness_OrBitwise : Ready midRun (.or 0 2 (.imm 255)) ∧ Ready midRun (.or 0 2 (.reg 2)) := by decide
theorem witness_NotInvertsWordBits : Ready midRun (.not 0 (.imm 0)) ∧ Ready midRun (.not 0 (.reg 2)) := by
  decide
theorem witness_CmpeSetsFlagOnEqual : Ready midRun (.cmpe 2 (.imm 255)) ∧ Ready midRun (.cmpe 2 (.reg 0)) := by
  decide
theorem witness_CmpaSetsFlagOnAbove : Ready midRun (.cmpa 2 (.imm 255)) ∧ Ready midRun (.cmpa 2 (.reg 0)) := by
  decide
theorem witness_CmpaeSetsFlagOnAboveOrEqual :
    Ready midRun (.cmpae 2 (.imm 255)) ∧ Ready midRun (.cmpae 2 (.reg 0)) := by decide

/-- The first index past the program, from a register and as an immediate. -/
theorem witness_JmpAlwaysTaken :
    Ready (at8 0xA40001 [1, 0, 0] true) (.jmp (.imm 1)) ∧ Ready (at8 0xA40001 [1, 0, 0] true) (.jmp (.reg 0)) ∧
    (at8 0xA40001 [1, 0, 0] true).status = .running ∧
    (at8 0xA40001 [1, 0, 0] true).cfg.prog.length ≤ operandValue (at8 0xA40001 [1, 0, 0] true) (.imm 1) ∧
    (at8 0xA40001 [1, 0, 0] true).cfg.stepLimit = none := by decide
theorem witness_CjmpTakenWhenFlagSet :
    (Ready midRun (.cjmp (.imm 255)) ∧ midRun.flag = true) ∧
    (Ready { midRun with flag := false } (.cjmp (.reg 2)) ∧ { midRun with flag := false }.flag = false) := by
  decide

def v1Core (iw : Nat) : State := State.boot { Config.base with dialect := .v1_000, prog := [iw] }

theorem witness_CnjmpTakenWhenFlagClear :
    (Ready midRun (.cnjmp (.imm 255)) ∧ midRun.flag = true) ∧
    (Ready { midRun with flag := false } (.cnjmp (.reg 2)) ∧ { midRun with flag := false }.flag = false) ∧
    (configOk (v1Core 0xB4000A).cfg = true ∧ (Operand.imm 10).wf (v1Core 0xB4000A).cfg = true ∧
      (v1Core 0xB4000A).cfg.dialect = .v1_000 ∧ (v1Core 0xB4000A).status = .running ∧
      (v1Core 0xB4000A).cfg.stepLimit = none ∧
      (v1Core 0xB4000A).cfg.prog[(v1Core 0xB4000A).pc]? =
        some (wordOf (v1Core 0xB4000A).cfg 22 0 0 (.imm 10))) := by decide

/-- The last word of tape 0, and the first (and last) of tape 1 through a register. -/
theorem witness_ReadDeliversNextTapeWord :
    (Ready midRun (.read 1 (.imm 0)) ∧ operandValue midRun (.imm 0) = 0 ∧
      midRun.cfg.tape0[midRun.tcur0]? = some 20) ∧
    (Ready midRun (.read 0 (.reg 0)) ∧ operandValue midRun (.reg 0) = 1 ∧
      midRun.cfg.tape1[midRun.tcur1]? = some 30) := by decide

/-- Both tapes at their end, and an index that names no tape. -/
theorem witness_ReadPastEndSetsFlag :
    let s := { midRun with tcur0 := 2, tcur1 := 1 }
    (Ready s (.read 1 (.imm 0)) ∧ s.cfg.tape0.length ≤ s.tcur0) ∧
    (Ready s (.read 0 (.reg 0)) ∧ s.cfg.tape1.length ≤ s.tcur1) ∧
    (Ready midRun (.read 0 (.imm 2)) ∧ operandValue midRun (.imm 2) = 2) := by decide

/-- The first writable word and the last word of memory, from an immediate and a register. -/
theorem witness_StoreWritesWord :
    (Ready midRun (.store (.imm 2) 2) ∧ operandValue midRun (.imm 2) < midRun.cfg.memWords ∧
      midRun.cfg.memModel = .hv ∧ midRun.cfg.roWords ≤ operandValue midRun (.imm 2)) ∧
    (Ready { midRun with x := [7, 1, 2] } (.store (.reg 0) 0) ∧
      operandValue { midRun with x := [7, 1, 2] } (.reg 0) + 1 = midRun.cfg.memWords) := by decide
theorem witness_StoreWWritesWord :
    let s := hv64 0xE4800000000000000008 [0, 0, 8, 0, 0]
    (Ready s (.storeW (.imm 8) 2) ∧ operandValue s (.imm 8) = 1 * ((s.cfg.W + 7) / 8) ∧
      1 < s.cfg.memWords ∧ s.cfg.memModel = .hv ∧ s.cfg.roWords ≤ 1) ∧
    (Ready s (.storeW (.imm 24) 2) ∧ operandValue s (.imm 24) = 3 * ((s.cfg.W + 7) / 8) ∧
      3 < s.cfg.memWords) := by decide
theorem witness_StoreWAgreesWithStore :
    configOk (hv64 0xE4800000000000000008 [0, 0, 8, 0, 0]).cfg = true := by decide

theorem witness_StoreWritesOneWordOrNone :
    let s := hv64 0xE4800000000000000008 [0, 0, 8, 0, 0]
    exec (.store (.imm 1) 2) s = .next (s.writeMem 1 8).advance ∧
    exec (.store (.imm 4) 2) s = .next (faultedState s .memOutOfBounds) ∧
    exec (.storeW (.imm 8) 2) s = .next (s.writeMem 1 8).advance ∧
    exec (.storeW (.imm 4) 2) s = .next (faultedState s .misalignedStore) := ⟨rfl, rfl, rfl, rfl⟩

/-- The first index past memory, and the last one of the read-only segment. -/
theorem witness_StoreOutsideWritableFaults :
    let s := hv64 0xE4800000000000000008 [0, 0, 8, 0, 0]
    configOk s.cfg = true ∧
    (s.cfg.memWords ≤ 4 ∧ operandValue s (.imm 4) = 4 ∧ operandValue s (.imm 32) = 4 * ((s.cfg.W + 7) / 8)) ∧
    (s.cfg.memModel = .hv ∧ 0 < s.cfg.roWords ∧ operandValue s (.reg 0) = 0 ∧
      operandValue s (.imm 0) = 0 * ((s.cfg.W + 7) / 8)) := by decide
theorem witness_MisalignedStoreWFaults :
    let s := hv64 0xE4800000000000000008 [0, 0, 8, 0, 0]
    operandValue s (.imm 1) % ((s.cfg.W + 7) / 8) ≠ 0 ∧ operandValue s (.imm 33) % ((s.cfg.W + 7) / 8) ≠ 0 := by
  decide
theorem witness_AnswerHalts : Ready midRun (.answer (.imm 255)) ∧ Ready midRun (.answer (.reg 2)) := by decide

theorem witness_AddThenSubRestores :
    let s := at8 0x240064 [200, 0, 0] false
    Ready s (.add 0 0 (.imm 100)) ∧ Operand.imm 100 ≠ .reg 0 ∧
    ∃ t u, exec (.add 0 0 (.imm 100)) s = .next t ∧ exec (.sub 0 0 (.imm 100)) t = .next u :=
  ⟨by decide, by decide, _, _, rfl, rfl⟩
theorem witness_ProductWordsCompose : Ready midRun (.mull 0 2 (.reg 2)) ∧ Ready midRun (.mull 2 2 (.imm 255)) := by
  decide

theorem witness_StepKeepsInvariant :
    { midRun with pc := 2 }.Inv ∧ step { midRun with pc := 2 } = .next (after { midRun with pc := 2 }) :=
  ⟨midRun_inv 2 (by decide), rfl⟩
theorem witness_ResetHasInvariant : configOk midRun.cfg = true := by decide

theorem witness_FaultsArePrecise :
    { midRun with pc := 4 }.status = .running ∧
    step { midRun with pc := 4 } = .next (after { midRun with pc := 4 }) ∧
    (after { midRun with pc := 4 }).status = .faulted := ⟨rfl, rfl, rfl⟩
theorem witness_FaultCauseNeverCleared :
    broken.Inv ∧ broken.faultCause = some .illegalInstruction ∧ IsTrace broken (trace broken) 2 :=
  ⟨broken_inv, rfl, rfl, fun j hj => by interval_cases j <;> rfl⟩
theorem witness_OnlyUmodAndStoresFault :
    midRun.status = .running ∧ (∀ rd ra b, Instr.read 1 (.imm 9) ≠ .umod rd ra b) ∧
    (∀ b r, Instr.read 1 (.imm 9) ≠ .store b r) ∧ ∀ b r, Instr.read 1 (.imm 9) ≠ .storeW b r :=
  ⟨rfl, fun _ _ _ h => (by cases h), fun _ _ h => (by cases h), fun _ _ h => (by cases h)⟩

/-- A step that halts and one that faults. -/
theorem witness_StatusChangesOnlyByAnswerOrFault :
    (step { midRun with pc := 3 } = .next (after { midRun with pc := 3 }) ∧
      (after { midRun with pc := 3 }).status = .halted) ∧
    (step { midRun with pc := 4 } = .next (after { midRun with pc := 4 }) ∧
      (after { midRun with pc := 4 }).status = .faulted) := ⟨⟨rfl, rfl⟩, rfl, rfl⟩

/-- A step that completes, one that halts and one that faults. -/
theorem witness_StepsCountsCompleted :
    midRun.status = .running ∧ step midRun = .next (after midRun) ∧
    step { midRun with pc := 3 } = .next (after { midRun with pc := 3 }) ∧
    step { midRun with pc := 4 } = .next (after { midRun with pc := 4 }) := ⟨rfl, rfl, rfl, rfl⟩
theorem witness_NextPcIsTheMultiplexer :
    midRun.status = .running ∧ step midRun = .next (after midRun) ∧ (after midRun).status ≠ .faulted ∧
    (after { midRun with pc := 4 }).status = .faulted := ⟨rfl, rfl, by decide, rfl⟩
theorem witness_FlagFollowsTheTable :
    midRun.regsOk = true ∧ midRun.status = .running ∧ step midRun = .next (after midRun) ∧
    (after midRun).status ≠ .faulted := ⟨rfl, rfl, rfl, by decide⟩

theorem witness_OnlyConditionalJumpsReadFlag :
    (∀ b, Instr.mov 0 (.imm 1) ≠ .cjmp b) ∧ (∀ b, Instr.mov 0 (.imm 1) ≠ .cnjmp b) ∧
    ∃ t, exec (.mov 0 (.imm 1)) midRun = .next t :=
  ⟨fun _ h => (by cases h), fun _ h => (by cases h), _, rfl⟩
theorem witness_NoInstructionReadsPc : ∃ t, exec (.jmp (.reg 2)) midRun = .next t := ⟨_, rfl⟩
theorem witness_DataMemoryIsNeverRead :
    configOk { midRun.cfg with memInit := [(1, 255)] } = true ∧ step midRun = .next (after midRun) := ⟨rfl, rfl⟩

/-- A `read` that moves the cursor of tape 0, and one that moves that of tape 1. -/
theorem witness_CursorsMoveOnlyByRead :
    ({ midRun with pc := 0 }.Inv ∧ step { midRun with pc := 0 } = .next (after { midRun with pc := 0 }) ∧
      (after { midRun with pc := 0 }).tcur0 = 2) ∧
    ({ midRun with pc := 1 }.Inv ∧ step { midRun with pc := 1 } = .next (after { midRun with pc := 1 }) ∧
      (after { midRun with pc := 1 }).tcur1 = 1) :=
  ⟨⟨midRun_inv 0 (by decide), rfl, rfl⟩, midRun_inv 1 (by decide), rfl, rfl⟩

/-- Two stores to one word, `store 3, r0` after `mov r0, 5` and `store 3, r1`; the port idle before them. -/
theorem witness_MemoryIsTheStoresInOrder :
    let s := State.boot { Config.base with prog := [0x940005, 0xC40003, 0xC44003] }
    IsTrace s (trace s) 3 ∧ (step s = .next (trace s 1) ∧ ∀ w, ramWritePort s ≠ some (3, w)) ∧
    ramWritePort (trace s 1) = some (3, 5) ∧ ramWritePort (trace s 2) = some (3, 0) ∧
    (trace s 3).status = .running :=
  ⟨⟨rfl, fun j hj => by interval_cases j <;> rfl⟩, ⟨rfl, fun _ h => (by cases h)⟩, rfl, rfl, rfl⟩
theorem witness_ReadOnlySegmentNeverChanges :
    midRun.cfg.memModel = .hv ∧ 1 < midRun.cfg.roWords ∧
    step { midRun with pc := 2 } = .next (after { midRun with pc := 2 }) := ⟨rfl, by decide, rfl⟩

/-- The last step a limit of 5 lets complete; and a run of which one instruction is allowed:
it completes, and the second step faults. -/
theorem witness_StepLimitEndsTheRun :
    ({ midRun with pc := 0 }.Inv ∧ { midRun with pc := 0 }.cfg.stepLimit = some 5 ∧
      step { midRun with pc := 0 } = .next (after { midRun with pc := 0 }) ∧
      (after { midRun with pc := 0 }).status = .running ∧ (after { midRun with pc := 0 }).steps = 5) ∧
    let c := { Config.base with stepLimit := some 1, prog := [0x940001, 0xFC0000] }
    c.stepLimit = some 1 ∧ IsTrace (State.boot c) (trace (State.boot c)) 2 :=
  ⟨⟨midRun_inv 0 (by decide), rfl, rfl, rfl, rfl⟩, rfl, rfl, fun j hj => by interval_cases j <;> rfl⟩
theorem witness_RunResultReadsTheStop :
    ({ midRun with pc := 0 }.Inv ∧ { midRun with pc := 0 }.status = .running) ∧
    (stopped.Inv ∧ stopped.status = .halted) ∧ (broken.Inv ∧ broken.status = .faulted) :=
  ⟨⟨midRun_inv 0 (by decide), rfl⟩, ⟨stopped_inv, rfl⟩, broken_inv, rfl⟩

end Sys2Proof.Tests
end

section
/-! The statements about the state (spec 10_state.md): a stopped core is frozen (R51), the parameters never change
(R31), an unwritten register reads 0 (R34), and the tape cursors move only by `read` (R43). -/

namespace Sys2Proof.Machine

open Sys2Proof

/-- The two kinds of step: a completed instruction other than `answer`, or a step that touches at most the four
status registers (the frozen step of R51, a fault entry of R249, the halt of R230). -/
theorem step_completes_or_frame {s t : State} (h : step s = .next t) :
    (∃ i, fetchDecode s = .ok i ∧ Completes i s t) ∨
    ∃ status haltCode faultCause steps,
      t = { s with status := status, haltCode := haltCode, faultCause := faultCause, steps := steps } := by
  by_cases hr : s.status = .running
  · rcases step_running_cases hr h with ⟨f, rfl⟩ | ⟨i, hi, -, hc⟩ | ⟨code, -, rfl⟩
    · exact .inr ⟨_, _, _, _, rfl⟩
    · exact .inl ⟨i, hi, hc⟩
    · exact .inr ⟨_, _, _, _, rfl⟩
  · rcases (step_cases h).2 with ⟨-, rfl⟩ | ⟨hrun, -⟩
    · exact .inr ⟨_, _, _, _, rfl⟩
    · exact absurd hrun hr

/-- A property of the first state that every step of the trace keeps holds of its last state. -/
theorem IsTrace.invariant {P : State → Prop} {s : State} {tr : Nat → State} {k : Nat} (h : IsTrace s tr k)
    (h0 : P s) (hstep : ∀ j, j < k → step (tr j) = .next (tr (j + 1)) → P (tr j) → P (tr (j + 1))) :
    P (tr k) := by
  obtain ⟨hstart, hnext⟩ := h
  have hall : ∀ j, j ≤ k → P (tr j) := by
    intro j
    induction j with
    | zero => intro _; rwa [hstart]
    | succ j ih => exact fun hj => hstep j hj (hnext j hj) (ih (Nat.le_of_succ_le hj))
  exact hall k le_rfl

/-- No step changes the parameters (R31). -/
theorem step_cfg {s t : State} (h : step s = .next t) : t.cfg = s.cfg := by
  rcases step_completes_or_frame h with ⟨i, -, hc⟩ | ⟨_, _, _, _, rfl⟩
  · exact hc.cfg
  · rfl

/-- A register keeps its value in a step unless a completed instruction has it as its destination. -/
theorem step_readReg_of_not_destination {s t : State} {r : Nat} (h : step s = .next t)
    (hd : ∀ i, fetchDecode s = .ok i → t.steps = s.steps + 1 → destinationOf i ≠ some r) :
    t.readReg r = s.readReg r := by
  rcases step_completes_or_frame h with ⟨i, hi, hc⟩ | ⟨_, _, _, _, rfl⟩
  · exact hc.otherRegs r (hd i hi hc.steps)
  · rfl

/-- Every register reads 0 after reset (R280). -/
theorem readReg_boot (c : Config) (r : Nat) : (State.boot c).readReg r = 0 :=
  List.getElem?_getD_replicate_default_eq 0 c.K r

/-- The cursor of tape 0 stays, or a `read` of tape 0 moves it past one unread word (R43, R211). -/
theorem step_tcur0 {s t : State} (h : step s = .next t) :
    t.tcur0 = s.tcur0 ∨ t.tcur0 = s.tcur0 + 1 ∧ s.tcur0 < s.cfg.tape0.length ∧
      ∃ rd b, fetchDecode s = .ok (.read rd b) ∧ operandValue s b = 0 := by
  rcases step_completes_or_frame h with ⟨i, hi, hc⟩ | ⟨_, _, _, _, rfl⟩
  · rcases hc.tcur0 with hsame | ⟨hmove, hlt, rd, b, rfl, hb⟩
    · exact .inl hsame
    · exact .inr ⟨hmove, hlt, rd, b, hi, hb⟩
  · exact .inl rfl

/-- The cursor of tape 1 stays, or a `read` of tape 1 moves it past one unread word (R43, R211). -/
theorem step_tcur1 {s t : State} (h : step s = .next t) :
    t.tcur1 = s.tcur1 ∨ t.tcur1 = s.tcur1 + 1 ∧ s.tcur1 < s.cfg.tape1.length ∧
      ∃ rd b, fetchDecode s = .ok (.read rd b) ∧ operandValue s b = 1 := by
  rcases step_completes_or_frame h with ⟨i, hi, hc⟩ | ⟨_, _, _, _, rfl⟩
  · rcases hc.tcur1 with hsame | ⟨hmove, hlt, rd, b, rfl, hb⟩
    · exact .inl hsame
    · exact .inr ⟨hmove, hlt, rd, b, hi, hb⟩
  · exact .inl rfl

/-- A cursor that stays, or moves by one when a word is unread, stays within its tape. -/
theorem cursor_le_of_move {old new len : Nat} {P : Prop} (hle : old ≤ len)
    (h : new = old ∨ new = old + 1 ∧ old < len ∧ P) : new ≤ len := by
  omega

/-- Settles O9: a stopped core steps to itself, so by induction along the trace it stays the state it was. -/
theorem stoppedCoreIsFrozen : Obligations.StoppedCoreIsFrozen := by
  intro s tr k hc hr
  have hself : step s = .next s := step_of_stopped hc hr
  refine ⟨hself, fun htr => htr.invariant (P := (· = s)) rfl fun j _ hj hs => ?_⟩
  rw [hs, hself] at hj
  cases hj
  rfl

/-- Settles O10: neither kind of step writes the parameters. -/
theorem parametersNeverChange : Obligations.ParametersNeverChange :=
  fun _ _ h => step_cfg h

/-- Settles O13: a register reads 0 at reset, and no step of the trace writes it. -/
theorem unwrittenRegisterReadsZero : Obligations.UnwrittenRegisterReadsZero := by
  intro c tr k r htr hd
  refine htr.invariant (P := fun s => s.readReg r = 0) (readReg_boot c r) fun j hj hstep hzero => ?_
  rw [step_readReg_of_not_destination hstep (hd j hj), hzero]

/-- Settles O56: both cursors are 0 at reset, and a step moves one only past an unread word of its tape. -/
theorem cursorsMoveOnlyByRead : Obligations.CursorsMoveOnlyByRead := by
  refine ⟨fun _ => ⟨rfl, rfl⟩, fun s t hinv h => ⟨?_, ?_, ?_, ?_⟩⟩
  · exact (step_tcur0 h).imp_right fun ⟨hmove, _, hread⟩ => ⟨hmove, hread⟩
  · exact (step_tcur1 h).imp_right fun ⟨hmove, _, hread⟩ => ⟨hmove, hread⟩
  · rw [step_cfg h]
    exact cursor_le_of_move hinv.tape0Bound (step_tcur0 h)
  · rw [step_cfg h]
    exact cursor_le_of_move hinv.tape1Bound (step_tcur1 h)

end Sys2Proof.Machine
end

section
/-! The statements about data memory (spec 20_memory.md): a store outside the writable words faults and writes
nothing (R75, R76), and memory is what the stores leave of `MEM_INIT`, in program order (R83). -/

namespace Sys2Proof.Machine

open Sys2Proof

/-! ### The checks of a store -/

/-- The bounds check of a store (R75, R243). -/
theorem storeWord_of_memWords_le {s : State} {widx v : Nat} (h : s.cfg.memWords ≤ widx) :
    storeWord s widx v = .next (faultedState s .memOutOfBounds) :=
  if_pos h

/-- The read-only check of a store, made after the bounds check (R76, R244). -/
theorem storeWord_of_lt_roLimit {s : State} {widx v : Nat} (hin : widx < s.cfg.memWords)
    (hro : widx < roLimit s.cfg) : storeWord s widx v = .next (faultedState s .memReadOnly) :=
  (if_neg (Nat.not_le.2 hin)).trans (if_pos hro)

/-- The read-only segment lies within memory (R7, R71). -/
theorem configOk_roLimit_le {c : Config} (h : configOk c = true) : roLimit c ≤ c.memWords := by
  simp only [configOk, Bool.and_eq_true, decide_eq_true_eq] at h
  omega

theorem roLimit_of_hv {c : Config} (h : c.memModel = .hv) : roLimit c = c.roWords := by
  simp [roLimit, h]

theorem bytesPerWord_pos {c : Config} (h : configOk c = true) : 0 < bytesPerWord c := by
  have hW := (configOk_bounds h).1
  unfold bytesPerWord
  omega

/-- `store` at word index `widx` is the store of that word (R72). -/
theorem execStore_of_index {s : State} {dest : Operand} {rs widx : Nat} (hb : operandValue s dest = widx) :
    execStore dest rs s = storeWord s widx (s.readReg rs) := by
  rw [← hb]; rfl

/-- `store.w` at the first byte offset of word `widx` is the store of that word (R73). -/
theorem execStoreW_of_byteOffset {s : State} {dest : Operand} {rs widx : Nat} (hc : configOk s.cfg = true)
    (hb : operandValue s dest = widx * bytesPerWord s.cfg) :
    execStoreW dest rs s = storeWord s widx (s.readReg rs) := by
  have haligned : byteOffsetAligned s.cfg (widx * bytesPerWord s.cfg) = true := by simp [byteOffsetAligned]
  have hindex : byteOffsetIndex s.cfg (widx * bytesPerWord s.cfg) = widx :=
    Nat.mul_div_cancel widx (bytesPerWord_pos hc)
  simp only [execStoreW, hb, haligned, hindex, if_true]

/-- Both instructions, where they name word `widx`, answer what the store of that word answers (R73). -/
theorem exec_store_forms {s : State} {rs widx : Nat} {o : Host.Outcome State Fault Refusal} (dest : Operand)
    (hc : configOk s.cfg = true) (h : storeWord s widx (s.readReg rs) = o) :
    (operandValue s dest = widx → exec (.store dest rs) s = o) ∧
    (operandValue s dest = widx * bytesPerWord s.cfg → exec (.storeW dest rs) s = o) :=
  ⟨fun hb => (execStore_of_index hb).trans h, fun hb => (execStoreW_of_byteOffset hc hb).trans h⟩

/-- Settles O39: both instructions are the store of word `widx`, which the bounds or the read-only check ends. -/
theorem storeOutsideWritableFaults : Obligations.StoreOutsideWritableFaults := by
  intro s dest rs widx hc
  refine ⟨fun hout => exec_store_forms dest hc (storeWord_of_memWords_le hout), fun hhv hro => ?_⟩
  rw [← roLimit_of_hv hhv] at hro
  have hin : widx < s.cfg.memWords := hro.trans_le (configOk_roLimit_le hc)
  exact exec_store_forms dest hc (storeWord_of_lt_roLimit hin hro)

/-! ### The write port is the memory's only input -/

/-- A write that passes the checks of the port is the one the store makes. -/
theorem storeWord_of_checkedWrite {s : State} {i v widx w : Nat} (h : checkedWrite s i v = some (widx, w)) :
    storeWord s i v = .next (s.writeMem widx w).advance := by
  rcases storeWord_cases s i v with ⟨hout, -⟩ | ⟨-, hro, -⟩ | ⟨hin, hw, hs⟩
  · simp [checkedWrite, Nat.not_lt.2 hout] at h
  · simp [checkedWrite, hro] at h
  · rw [checkedWrite_some hin hw] at h
    cases h
    exact hs

/-- An instruction whose write the port carries does that write and goes on (R54, R222). -/
theorem exec_of_storePort {i : Instr} {s : State} {widx w : Nat} (h : storePort s i = some (widx, w)) :
    exec i s = .next (s.writeMem widx w).advance := by
  cases i with
  | store dest rs => exact storeWord_of_checkedWrite h
  | storeW dest rs =>
    simp only [storePort] at h
    split at h
    · rename_i haligned
      exact (if_pos haligned).trans (storeWord_of_checkedWrite h)
    · cases h
  | _ => cases h

/-- An instruction that leaves the port idle leaves memory alone. -/
theorem exec_mem_of_storePort_none {i : Instr} {s t : State} (hp : storePort s i = none)
    (h : exec i s = .next t) : t.mem = s.mem := by
  rcases exec_cases h with hc | ⟨f, rfl⟩ | ⟨code, -, rfl⟩
  · simpa only [hp] using hc.mem
  · rfl
  · rfl

/-- A step whose write the port carries does that write and goes on (R54). -/
theorem step_of_ramWritePort {s : State} {widx w : Nat} (hc : configOk s.cfg = true)
    (h : ramWritePort s = some (widx, w)) : step s = .next (s.writeMem widx w).advance := by
  unfold ramWritePort at h
  split at h
  · rename_i i hr hi
    exact (step_of_fetchDecode hc hr hi).trans (exec_of_storePort h)
  · cases h

/-- A step that leaves the port idle leaves memory alone. -/
theorem step_mem_of_ramWritePort_none {s t : State} (hp : ramWritePort s = none) (h : step s = .next t) :
    t.mem = s.mem := by
  rcases (step_cases h).2 with ⟨-, rfl⟩ | ⟨hr, ⟨f, -, rfl⟩ | ⟨i, hi, he⟩⟩
  · rfl
  · rfl
  · exact exec_mem_of_storePort_none (by simpa only [ramWritePort, hr, hi] using hp) he

/-- What word `a` holds after a step in which the write port carried `port`, where it held `v` before. -/
def wordAfterPort (port : Option (Nat × Nat)) (a v : Nat) : Nat :=
  match port with
  | some (widx, w) => if widx = a then w else v
  | none => v

/-- Every step writes to memory what the write port carries, and nothing else (R54, R83). -/
theorem step_readMem {s t : State} (h : step s = .next t) (a : Nat) :
    t.readMem a = wordAfterPort (ramWritePort s) a (s.readMem a) := by
  cases hp : ramWritePort s with
  | none => exact State.readMem_congr (step_cfg h) (step_mem_of_ramWritePort_none hp h) a
  | some p =>
    obtain ⟨widx, w⟩ := p
    rw [step_of_ramWritePort (step_cases h).1 hp] at h
    cases h
    exact (State.readMem_writeMem s widx a w).trans (by simp only [wordAfterPort, eq_comm (a := a)])

/-! ### Runs -/

/-- All but the last step of a trace are a trace. -/
theorem IsTrace.of_succ {s : State} {tr : Nat → State} {k : Nat} (h : IsTrace s tr (k + 1)) : IsTrace s tr k :=
  ⟨h.1, fun j hj => h.2 j (Nat.lt_succ_of_lt hj)⟩

/-- Along every trace a word is what the write ports of the steps leave of it, applied in order (R83). -/
theorem IsTrace.readMem_eq_foldl {s : State} {tr : Nat → State} {k : Nat} (h : IsTrace s tr k) (a : Nat) :
    (tr k).readMem a =
      (List.range k).foldl (fun v j => wordAfterPort (ramWritePort (tr j)) a v) (s.readMem a) := by
  induction k with
  | zero => rw [h.1]; rfl
  | succ k ih =>
    rw [step_readMem (h.2 k k.lt_succ_self), ih h.of_succ, List.range_succ, List.foldl_append]
    rfl

/-- Memory holds `MEM_INIT` after reset (R77, R280). -/
theorem readMem_boot (c : Config) (a : Nat) : (State.boot c).readMem a = initWord c a := rfl

/-- The host reads no memory of a running core (R54, R83). -/
theorem hostMemRead_of_running {s : State} (h : s.status = .running) (a n : Nat) : hostMemRead s a n = none := by
  simp [hostMemRead, h]

/-- Settles O57: each step applies the write port to memory, so by induction a run applies its stores in order. -/
theorem memoryIsTheStoresInOrder : Obligations.MemoryIsTheStoresInOrder := by
  refine ⟨fun s t a h => ⟨fun w hp => ?_, fun hother => ?_⟩, fun c tr k a htr => ⟨?_, fun hr n => ?_⟩⟩
  · rw [step_readMem h, hp]
    exact if_pos rfl
  · rw [step_readMem h]
    cases hp : ramWritePort s with
    | none => rfl
    | some p =>
      obtain ⟨widx, w⟩ := p
      exact if_neg (by rintro rfl; exact hother w hp)
  · rw [← readMem_boot]
    exact htr.readMem_eq_foldl a
  · exact hostMemRead_of_running hr a n

end Sys2Proof.Machine
end

section
/-! The statement about `mov` (spec 40_mov.md R140), and what it shares with every other instruction: the word built
from the fields of a well-formed instruction decodes to it, and the register it writes exists. -/

namespace Sys2Proof.Machine

open Sys2Proof

/-! ### The word of an instruction -/

/-- The fields of an instruction of the configuration pass checks 4 and 5 of R107; an unused register field is 0,
and register 0 exists. -/
theorem fields_of_wf {c : Config} {i : Instr} (hc : configOk c = true) (h : i.wf c = true) :
    riOf i < c.K ∧ rjOf i < c.K ∧ (operandOf i).wf c = true := by
  have hK : 0 < c.K := (configOk_bounds hc).2.1
  cases i <;> simp_all [Instr.wf, riOf, rjOf, operandOf]

/-- The opcode map assembles a well-formed instruction from its own fields (R105). -/
theorem decodeOp_of_wf {c : Config} {i : Instr} (h : i.wf c = true) :
    decodeOp c (opcodeOf i) (riOf i) (rjOf i) (operandOf i) = .ok i := by
  cases i with
  | storeW dest rs =>
    cases dest <;>
      simp_all [Instr.wf, Operand.storeWOk, opcodeOf, riOf, rjOf, operandOf, decodeOp, onlyV2, storeWForm, formD]
  | _ => simp_all [Instr.wf, opcodeOf, riOf, rjOf, operandOf, decodeOp, form3, formD, formC, formJ, onlyV2]

/-- The word with the fields of a well-formed instruction decodes to that instruction (R100, R101, R107). -/
theorem decode_wordOf_of_wf {c : Config} {i : Instr} (hc : configOk c = true) (h : i.wf c = true) :
    decode c (wordOf c (opcodeOf i) (riOf i) (rjOf i) (operandOf i)) = .ok i := by
  obtain ⟨hri, hrj, hsrc⟩ := fields_of_wf hc h
  have hK : c.K ≤ 16 := (configOk_bounds hc).2.2
  rw [decode_wordOf hc hsrc (opcodeOf_lt i) (hri.trans_le hK) (hrj.trans_le hK)]
  exact decodeOp_of_wf h

/-! ### The register an instruction writes -/

/-- The destination register stands in the field `ri` (R104). -/
theorem riOf_of_destinationOf {i : Instr} {rd : Nat} (h : destinationOf i = some rd) : riOf i = rd := by
  cases i <;> simp_all [destinationOf, riOf]

/-- The destination of an instruction that is ready to run is a register of the file. -/
theorem Ready.destination_lt {s : State} {i : Instr} {rd : Nat} (h : Ready s i)
    (hd : destinationOf i = some rd) : rd < s.x.length := by
  obtain ⟨hc, hregs, hw⟩ := h
  rw [((regsOk_iff s).1 hregs).1, ← riOf_of_destinationOf hd]
  exact (fields_of_wf hc hw).1

/-- `mov` is a write back that writes the flag with its own value (R140). -/
theorem execMov_eq_writeBack (s : State) (rd : Nat) (src : Operand) :
    execMov rd src s = writeBack s rd (operandValue s src) s.flag := rfl

/-- Settles O14: `mov` writes back the operand's value and the old flag, to a register that exists. -/
theorem movCopiesOperand : Obligations.MovCopiesOperand := by
  intro s rd src h
  have hlt : rd < s.x.length := h.destination_lt rfl
  obtain ⟨hc, -, hw⟩ := h
  exact ⟨decode_wordOf_of_wf hc hw, _, execMov_eq_writeBack s rd src, writesRegister_writeBack hlt⟩

end Sys2Proof.Machine
end

section
/-! The statement about `add` (spec 41_arith.md R151), and what it shares with every instruction that writes back a
result and a flag. -/

namespace Sys2Proof.Machine

open Sys2Proof

/-- The word of an instruction that is ready and writes back to its destination decodes to it, and the instruction
completes with that result and flag and changes nothing else (R48, R50). -/
theorem Ready.decode_and_writesRegister {s : State} {i : Instr} {rd v : Nat} {f : Bool} (h : Ready s i)
    (hd : destinationOf i = some rd) (he : exec i s = writeBack s rd v f) :
    decode s.cfg (wordOf s.cfg (opcodeOf i) (riOf i) (rjOf i) (operandOf i)) = .ok i ∧
    ∃ t, exec i s = .next t ∧ WritesRegister s t rd v f := by
  have hlt : rd < s.x.length := h.destination_lt hd
  obtain ⟨hc, -, hw⟩ := h
  exact ⟨decode_wordOf_of_wf hc hw, _, he, writesRegister_writeBack hlt⟩

/-- Operand A of an instruction that is ready is a W-bit value (R57, R103). -/
theorem Ready.operandValue_lt {s : State} {i : Instr} (h : Ready s i) :
    operandValue s (operandOf i) < 2 ^ s.cfg.W := by
  obtain ⟨hc, hregs, hw⟩ := h
  obtain ⟨-, -, hsrc⟩ := fields_of_wf hc hw
  exact Machine.operandValue_lt hregs hsrc

/-- The sum of two W-bit values is below `2 * 2^W`, so it reaches `2^W` exactly when its carry is 1 (R151). -/
theorem addFlag_eq_carry {W a b : Nat} (ha : a < 2 ^ W) (hb : b < 2 ^ W) :
    addFlag W a b = decide ((a + b) / 2 ^ W = 1) := by
  have hsum : a + b < 2 ^ W * 2 := by omega
  refine decide_eq_decide.2 ⟨fun hge => ?_, fun hcarry => ?_⟩
  · exact Nat.div_eq_of_lt_le (by omega) (by omega)
  · exact (Nat.div_pos_iff.1 (by omega)).2

/-- Settles O15: `add` writes back the narrowed sum and a flag that is, for two W-bit values, its carry. -/
theorem addWrapsWithCarry : Obligations.AddWrapsWithCarry := by
  intro s rd ra src h
  have ⟨_, hregs, _⟩ := h
  have ha : s.readReg ra < 2 ^ s.cfg.W := readReg_lt hregs ra
  have hb : operandValue s src < 2 ^ s.cfg.W := h.operandValue_lt
  rw [← addFlag_eq_carry ha hb]
  exact h.decode_and_writesRegister rfl rfl

end Sys2Proof.Machine
end

section
/-! The statement about `xor` (spec 43_logic.md R180): what its word is bit by bit. -/

namespace Sys2Proof.Machine

open Sys2Proof

/-- The exclusive or of two W-bit values is a W-bit value (R57, R180). -/
theorem xorWord_lt {W a b : Nat} (ha : a < 2 ^ W) (hb : b < 2 ^ W) : xorWord a b < 2 ^ W :=
  Nat.xor_lt_two_pow ha hb

/-- Bit `k` of the word is the sum of the operands' bits `k` mod 2 (R180). -/
theorem testBit_xorWord (a b k : Nat) : (xorWord a b).testBit k = (a.testBit k != b.testBit k) :=
  Nat.testBit_xor a b k

/-- Settles O23: `xor` writes back the exclusive or of two W-bit values and a cleared flag. -/
theorem xorBitwise : Obligations.XorBitwise := by
  intro s rd ra src h
  have ⟨_, hregs, _⟩ := h
  have ha : s.readReg ra < 2 ^ s.cfg.W := readReg_lt hregs ra
  have hb : operandValue s src < 2 ^ s.cfg.W := h.operandValue_lt
  obtain ⟨hdec, t, hexec, hwrites⟩ := h.decode_and_writesRegister rfl rfl
  exact ⟨hdec, t, _, hexec, hwrites, xorWord_lt ha hb, testBit_xorWord _ _⟩

end Sys2Proof.Machine
end

section
/-! The statements about the compares (spec 44_compare.md R190, R191, R192): each completes with its comparison in the
flag and changes nothing else. -/

namespace Sys2Proof.Machine

open Sys2Proof

/-- Setting the flag and going on writes the flag and nothing else but `pc` and `STEPS` (R48, R50). -/
theorem writesFlag_setFlag_advance (s : State) (f : Bool) : WritesFlag s (s.setFlag f).advance f where
  flagValue := by simp
  pcNext := by simp [seqPc]
  counted := by simp
  regsSame := State.readReg_congr (by simp)
  memory := State.readMem_congr (by simp) (by simp)
  rest := rfl

/-- The word of an instruction that is ready and sets the flag decodes to it, and the instruction completes with that
flag and changes nothing else (R48, R50). -/
theorem Ready.decode_and_writesFlag {s : State} {i : Instr} {f : Bool} (h : Ready s i)
    (he : exec i s = .next (s.setFlag f).advance) :
    decode s.cfg (wordOf s.cfg (opcodeOf i) (riOf i) (rjOf i) (operandOf i)) = .ok i ∧
    ∃ t, exec i s = .next t ∧ WritesFlag s t f := by
  obtain ⟨hc, -, hw⟩ := h
  exact ⟨decode_wordOf_of_wf hc hw, _, he, writesFlag_setFlag_advance s f⟩

/-- What `cmpe` does (R190). -/
theorem exec_cmpe (ra : Nat) (src : Operand) (s : State) :
    exec (.cmpe ra src) s = .next (s.setFlag (decide (s.readReg ra = operandValue s src))).advance := rfl

/-- What `cmpa` does (R191). -/
theorem exec_cmpa (ra : Nat) (src : Operand) (s : State) :
    exec (.cmpa ra src) s = .next (s.setFlag (decide (s.readReg ra > operandValue s src))).advance := rfl

/-- What `cmpae` does (R192). -/
theorem exec_cmpae (ra : Nat) (src : Operand) (s : State) :
    exec (.cmpae ra src) s = .next (s.setFlag (decide (s.readReg ra ≥ operandValue s src))).advance := rfl

/-- Settles O27: `cmpe` sets the flag to the equality of its operands and goes on. -/
theorem cmpeSetsFlagOnEqual : Obligations.CmpeSetsFlagOnEqual :=
  fun s ra src h => h.decode_and_writesFlag (exec_cmpe ra src s)

/-- Settles O28: `cmpa` sets the flag to "above", unsigned because the values are natural numbers, and goes on. -/
theorem cmpaSetsFlagOnAbove : Obligations.CmpaSetsFlagOnAbove :=
  fun s ra src h => h.decode_and_writesFlag (exec_cmpa ra src s)

/-- Settles O29: `cmpae` sets the flag to "above or equal", unsigned because the values are natural numbers, and goes
on. -/
theorem cmpaeSetsFlagOnAboveOrEqual : Obligations.CmpaeSetsFlagOnAboveOrEqual :=
  fun s ra src h => h.decode_and_writesFlag (exec_cmpae ra src s)

end Sys2Proof.Machine
end

section
/-! The statements about the jumps (spec 45_jumps.md R201, R202, R203): each completes with its target or the
sequential index in `pc` and changes nothing else; and the two faults a fetch can end in (R246, R247). -/

namespace Sys2Proof.Machine

open Sys2Proof

/-! ### What a jump leaves -/

/-- Completing at an index puts it in `pc` and changes nothing else but `STEPS` (R48, R50). -/
theorem goesTo_complete (s : State) (target : Nat) : GoesTo s (s.complete target) target where
  pcNext := by simp
  counted := by simp
  regsSame := State.readReg_congr (by simp)
  flagSame := by simp
  memory := State.readMem_congr (by simp) (by simp)
  rest := rfl

/-- The word of an instruction that is ready and completes at `target` decodes to it, and the instruction completes
there and changes nothing else (R48, R50). -/
theorem Ready.decode_and_goesTo {s : State} {i : Instr} {target : Nat} (h : Ready s i)
    (he : exec i s = .next (s.complete target)) :
    decode s.cfg (wordOf s.cfg (opcodeOf i) (riOf i) (rjOf i) (operandOf i)) = .ok i ∧
    ∃ t, exec i s = .next t ∧ GoesTo s t target := by
  obtain ⟨hc, -, hw⟩ := h
  exact ⟨decode_wordOf_of_wf hc hw, _, he, goesTo_complete s target⟩

/-- What `jmp` does (R201). -/
theorem exec_jmp (b : Operand) (s : State) : exec (.jmp b) s = .next (s.complete (operandValue s b)) := rfl

/-- What `cjmp` does (R202). -/
theorem exec_cjmp (b : Operand) (s : State) :
    exec (.cjmp b) s = .next (s.complete (if s.flag = true then operandValue s b else seqPc s)) := rfl

/-- What `cnjmp` does (R203). -/
theorem exec_cnjmp (b : Operand) (s : State) :
    exec (.cnjmp b) s = .next (s.complete (if s.flag = false then operandValue s b else seqPc s)) := rfl

/-! ### The faults of a fetch -/

/-- Without a step limit none is reached (R10, R245). -/
theorem stepLimitReached_of_none {s : State} (h : s.cfg.stepLimit = none) : stepLimitReached s = false := by
  simp [stepLimitReached, h]

/-- A fetch past the end of the program is out of range (R247). -/
theorem fetchDecode_of_prog_length_le {s : State} (hl : stepLimitReached s = false)
    (hpc : s.cfg.prog.length ≤ s.pc) : fetchDecode s = .error .fetchOutOfRange := by
  simp [fetchDecode, fetchWord, hl, hpc]

/-- A fetched word that does not decode is an illegal instruction (R246). -/
theorem fetchDecode_of_decode_error {s : State} {iw : Nat} {e : Illegal} (hl : stepLimitReached s = false)
    (hw : s.cfg.prog[s.pc]? = some iw) (hd : decode s.cfg iw = .error e) :
    fetchDecode s = .error .illegalInstruction := by
  simp [fetchDecode, fetchWord, hl, hw, hd]

/-- `V1_000` has none of the opcodes that only `V2_00` has (R108). -/
theorem onlyV2_of_v1 {c : Config} (h : c.dialect = .v1_000) (r : Except Illegal Instr) :
    onlyV2 c r = .error .dialect := by
  simp [onlyV2, h]

/-- Under `V1_000` the word of `cnjmp` is illegal, whatever its operand (R108, R203). -/
theorem decode_cnjmp_of_v1 {c : Config} {b : Operand} (hc : configOk c = true) (hb : b.wf c = true)
    (hv1 : c.dialect = .v1_000) : decode c (wordOf c 22 0 0 b) = .error .dialect :=
  (decode_wordOf hc hb (by decide) (by decide) (by decide)).trans (onlyV2_of_v1 hv1 _)

/-! ### The obligations -/

/-- Settles O30: `jmp` completes at its operand's value; the parameters and the status are kept, so the next step
fetches there, past the end of the program. -/
theorem jmpAlwaysTaken : Obligations.JmpAlwaysTaken := by
  intro s b h
  have ⟨hc, _, hw⟩ := h
  refine ⟨decode_wordOf_of_wf hc hw, _, exec_jmp b s, goesTo_complete s _, fun hr hout hnone => ?_⟩
  have hfetch : fetchDecode (s.complete (operandValue s b)) = .error .fetchOutOfRange :=
    fetchDecode_of_prog_length_le (stepLimitReached_of_none hnone) hout
  exact step_of_fetchDecode_error hc hr hfetch

/-- Settles O31: `cjmp` completes at the index the flag selects, its operand's value when the flag is set. -/
theorem cjmpTakenWhenFlagSet : Obligations.CjmpTakenWhenFlagSet := by
  intro s b h
  obtain ⟨hdec, t, hexec, hgoes⟩ := h.decode_and_goesTo (exec_cjmp b s)
  refine ⟨hdec, t, hexec, fun hset => ?_, fun hclear => ?_⟩
  · rwa [if_pos hset] at hgoes
  · rwa [if_neg (by simp [hclear])] at hgoes

/-- Settles O32: `cnjmp` completes at the index the flag selects, its operand's value when the flag is clear; under
`V1_000` its word does not decode, so the step at it faults. -/
theorem cnjmpTakenWhenFlagClear : Obligations.CnjmpTakenWhenFlagClear := by
  refine ⟨fun s b h => ?_, fun s b hc hb hv1 hr hnone hw => ?_⟩
  · obtain ⟨hdec, t, hexec, hgoes⟩ := h.decode_and_goesTo (exec_cnjmp b s)
    refine ⟨hdec, t, hexec, fun hclear => ?_, fun hset => ?_⟩
    · rwa [if_pos hclear] at hgoes
    · rwa [if_neg (by simp [hset])] at hgoes
  · have hfetch : fetchDecode s = .error .illegalInstruction :=
      fetchDecode_of_decode_error (stepLimitReached_of_none hnone) hw (decode_cnjmp_of_v1 hc hb hv1)
    exact step_of_fetchDecode_error hc hr hfetch

end Sys2Proof.Machine
end

section
/-! The statement about `read` (spec 46_read.md R210, R211): an unread word of the selected tape is delivered and that
tape's cursor moves past it. -/

namespace Sys2Proof.Machine

open Sys2Proof

theorem State.tapeHead_zero (s : State) : s.tapeHead 0 = s.cfg.tape0[s.tcur0]? := rfl

theorem State.tapeHead_one (s : State) : s.tapeHead 1 = s.cfg.tape1[s.tcur1]? := rfl

theorem State.bumpCursor_zero (s : State) : s.bumpCursor 0 = { s with tcur0 := s.tcur0 + 1 } := rfl

theorem State.bumpCursor_one (s : State) : s.bumpCursor 1 = { s with tcur1 := s.tcur1 + 1 } := rfl

/-- What `read` does (R210). -/
theorem exec_read (rd : Nat) (src : Operand) (s : State) : exec (.read rd src) s = execRead rd src s := rfl

/-- A `read` that finds a word moves the cursor and writes that word back with the flag clear (R210). -/
theorem exec_read_of_tapeHead_some {s : State} {rd t w : Nat} {src : Operand} (ht : operandValue s src = t)
    (hw : s.tapeHead t = some w) : exec (.read rd src) s = writeBack (s.bumpCursor t) rd w false := by
  simp only [exec_read, execRead, ht, hw]

/-- A `read` that is ready and finds a word completes: from the state with the cursor moved, only its register, the
flag, `pc` and `STEPS` change (R48, R211). -/
theorem Ready.read_writesRegister {s : State} {rd t w : Nat} {src : Operand} (h : Ready s (.read rd src))
    (ht : operandValue s src = t) (hw : s.tapeHead t = some w) :
    ∃ u, exec (.read rd src) s = .next u ∧ WritesRegister (s.bumpCursor t) u rd w false := by
  have hlt : rd < (s.bumpCursor t).x.length := by
    rw [State.bumpCursor_x]
    exact h.destination_lt rfl
  exact ⟨_, exec_read_of_tapeHead_some ht hw, writesRegister_writeBack hlt⟩

/-- Settles O33: the word at the cursor of tape 0 or 1 is the head of that tape, so `read` delivers it and moves that
cursor; the word of the instruction decodes to it. -/
theorem readDeliversNextTapeWord : Obligations.ReadDeliversNextTapeWord := by
  intro s rd src h
  have ⟨hc, _, hwf⟩ := h
  refine ⟨decode_wordOf_of_wf hc hwf, fun w => ⟨fun h0 hw => ?_, fun h1 hw => ?_⟩⟩
  · rw [← State.tapeHead_zero] at hw
    rw [← State.bumpCursor_zero]
    exact h.read_writesRegister h0 hw
  · rw [← State.tapeHead_one] at hw
    rw [← State.bumpCursor_one]
    exact h.read_writesRegister h1 hw

end Sys2Proof.Machine
end

section
/-! The statement about the stores (spec 47_store.md R220, R221, R222): one word of memory changes and the write port
carries it, or a fault ends the store and the port is idle. -/

namespace Sys2Proof.Machine

open Sys2Proof

/-! ### The store of a word -/

/-- Writing a word of memory and going on changes that word and nothing else but `pc` and `STEPS` (R48, R222). -/
theorem storesWord_writeMem_advance (s : State) (widx v : Nat) :
    StoresWord s (s.writeMem widx v).advance widx v where
  stored := (State.readMem_writeMem s widx widx v).trans (if_pos rfl)
  otherWords a hne := (State.readMem_writeMem s widx a v).trans (if_neg hne)
  pcNext := by simp [seqPc]
  counted := by simp
  regsSame := State.readReg_congr (by simp)
  flagSame := by simp
  rest := rfl

/-- A store past the end of memory leaves the write port idle (R54, R75). -/
theorem checkedWrite_of_memWords_le {s : State} {widx v : Nat} (h : s.cfg.memWords ≤ widx) :
    checkedWrite s widx v = none :=
  if_neg fun hpass => Nat.not_lt.2 h hpass.1

/-- A store to the read-only segment leaves the write port idle (R54, R76). -/
theorem checkedWrite_of_lt_roLimit {s : State} {widx v : Nat} (h : widx < roLimit s.cfg) :
    checkedWrite s widx v = none :=
  if_neg fun hpass => hpass.2 h

/-- The store of a word faults with the write port idle, or writes that word with the port carrying it: the port
makes the store's own two checks (R54, R222). -/
theorem storeWord_faults_or_storesWord {s t : State} {widx v : Nat} (h : storeWord s widx v = .next t) :
    (∃ f, t = faultedState s f ∧ checkedWrite s widx v = none) ∨
      StoresWord s t widx v ∧ checkedWrite s widx v = some (widx, v) := by
  rcases storeWord_cases s widx v with ⟨hout, he⟩ | ⟨-, hro, he⟩ | ⟨hin, hrw, he⟩ <;> rw [he] at h <;> cases h
  · exact .inl ⟨_, enterFault_eq_faultedState s _, checkedWrite_of_memWords_le hout⟩
  · exact .inl ⟨_, enterFault_eq_faultedState s _, checkedWrite_of_lt_roLimit hro⟩
  · exact .inr ⟨storesWord_writeMem_advance s widx v, checkedWrite_some hin hrw⟩

/-! ### The two instructions -/

/-- What `store` does (R220). -/
theorem exec_store (dest : Operand) (rs : Nat) (s : State) :
    exec (.store dest rs) s = storeWord s (operandValue s dest) (s.readReg rs) := rfl

/-- What `store` puts on the write port (R54, R220). -/
theorem storePort_store (dest : Operand) (rs : Nat) (s : State) :
    storePort s (.store dest rs) = checkedWrite s (operandValue s dest) (s.readReg rs) := rfl

/-- What `store.w` does at an aligned byte offset (R221). -/
theorem exec_storeW_of_aligned {s : State} {dest : Operand} (rs : Nat)
    (h : byteOffsetAligned s.cfg (operandValue s dest) = true) :
    exec (.storeW dest rs) s = storeWord s (byteOffsetIndex s.cfg (operandValue s dest)) (s.readReg rs) :=
  if_pos h

/-- What `store.w` puts on the write port at an aligned byte offset (R54, R221). -/
theorem storePort_storeW_of_aligned {s : State} {dest : Operand} (rs : Nat)
    (h : byteOffsetAligned s.cfg (operandValue s dest) = true) :
    storePort s (.storeW dest rs) =
      checkedWrite s (byteOffsetIndex s.cfg (operandValue s dest)) (s.readReg rs) :=
  if_pos h

/-- A misaligned `store.w` faults before the checks of the word index (R248, R251). -/
theorem exec_storeW_of_not_aligned {s : State} {dest : Operand} (rs : Nat)
    (h : ¬ byteOffsetAligned s.cfg (operandValue s dest) = true) :
    exec (.storeW dest rs) s = .next (faultedState s .misalignedStore) :=
  if_neg h

/-- A misaligned `store.w` leaves the write port idle (R54, R251). -/
theorem storePort_storeW_of_not_aligned {s : State} {dest : Operand} (rs : Nat)
    (h : ¬ byteOffsetAligned s.cfg (operandValue s dest) = true) : storePort s (.storeW dest rs) = none :=
  if_neg h

/-- Settles O38: `store`, and `store.w` at an aligned offset, are the store of one word, on the port as in memory; a
misaligned `store.w` faults and leaves the port idle. -/
theorem storeWritesOneWordOrNone : Obligations.StoreWritesOneWordOrNone := by
  refine fun s t dest rs => ⟨fun h => ?_, fun h => ?_⟩
  · rw [exec_store] at h
    rw [storePort_store]
    exact storeWord_faults_or_storesWord h
  · by_cases haligned : byteOffsetAligned s.cfg (operandValue s dest) = true
    · rw [exec_storeW_of_aligned rs haligned] at h
      rw [storePort_storeW_of_aligned rs haligned]
      exact storeWord_faults_or_storesWord h
    · rw [exec_storeW_of_not_aligned rs haligned] at h
      cases h
      exact .inl ⟨_, rfl, storePort_storeW_of_not_aligned rs haligned⟩

end Sys2Proof.Machine
end

section
/-! The statements about the faults (spec 60_exceptions.md): a recorded cause stays (R252), `umod` and the two stores
are the only instructions that fault (R251, R254), and a divisor of 0 is a fault of `umod` (R242). -/

namespace Sys2Proof.Machine

open Sys2Proof

/-! ### A recorded cause -/

/-- Under the invariant only a faulted core records a cause (R46). -/
theorem State.Inv.faulted_of_faultCause {s : State} {f : Fault} (h : s.Inv) (hf : s.faultCause = some f) :
    s.status = .faulted := by
  cases hs : s.status with
  | running => simp [(h.runningClean hs).1] at hf
  | halted => simp [h.haltedClean hs] at hf
  | faulted => rfl

/-- Settles O47: a core that records a cause is faulted, so it is frozen and no step of the trace changes it. -/
theorem faultCauseNeverCleared : Obligations.FaultCauseNeverCleared := by
  intro s tr k f hinv hf htr
  have hfaulted : s.status = .faulted := hinv.faulted_of_faultCause hf
  have hfrozen : tr k = s := (stoppedCoreIsFrozen s tr k hinv.cfgOk (by simp [hfaulted])).2 htr
  rw [hfrozen]
  exact ⟨hf, hfaulted⟩

/-! ### The instructions that cannot fault -/

/-- Every instruction but `umod`, the stores and `answer` completes, whatever its operands (R254). -/
theorem exec_completes {i : Instr} (s : State) (humod : ∀ rd ra b, i ≠ .umod rd ra b)
    (hstore : ∀ b r, i ≠ .store b r) (hstoreW : ∀ b r, i ≠ .storeW b r) (hanswer : ∀ b, i ≠ .answer b) :
    ∃ t, exec i s = .next t ∧ Completes i s t := by
  cases i with
  | umod rd ra src => exact absurd rfl (humod rd ra src)
  | store dest rs => exact absurd rfl (hstore dest rs)
  | storeW dest rs => exact absurd rfl (hstoreW dest rs)
  | answer code => exact absurd rfl (hanswer code)
  | read rd src =>
    obtain ⟨t, ht⟩ := exec_answers (.read rd src) s
    exact ⟨t, ht, execRead_cases ht⟩
  | mov rd src => exact ⟨_, execMov_eq_writeBack s rd src, completes_writeBack rfl rfl rfl⟩
  | and | or | xor | not | add | sub | mull | umulh | shl | shr => exact ⟨_, rfl, completes_writeBack rfl rfl rfl⟩
  | cmpe | cmpa | cmpae => exact ⟨_, rfl, completes_flag rfl rfl⟩
  | jmp | cjmp | cnjmp => exact ⟨_, rfl, completes_jump rfl rfl⟩

/-- What `answer` does (R230). -/
theorem exec_answer (code : Operand) (s : State) :
    exec (.answer code) s = .next (s.halt (operandValue s code)) := rfl

/-- Settles O48: `answer` halts and every other of these instructions completes, and neither end enters a fault. -/
theorem onlyUmodAndStoresFault : Obligations.OnlyUmodAndStoresFault := by
  intro i s hr humod hstore hstoreW
  by_cases hanswer : ∃ code, i = .answer code
  · obtain ⟨code, rfl⟩ := hanswer
    exact ⟨_, exec_answer code s, by simp, by simp⟩
  · obtain ⟨t, ht, hc⟩ := exec_completes s humod hstore hstoreW (not_exists.1 hanswer)
    exact ⟨t, ht, hc.faultCause, by simp [hc.status, hr]⟩

/-! ### Division by zero -/

/-- `umod` whose divisor is 0, in either operand form, takes the fault (R242). -/
theorem exec_umod_of_divisor_zero {s : State} {src : Operand} (rd ra : Nat) (h : operandValue s src = 0) :
    exec (.umod rd ra src) s = .next (faultedState s .divideByZero) :=
  if_pos h

/-- Settles O20: the immediate 0 and a register that holds 0 are both a divisor of 0. -/
theorem umodByZeroFaults : Obligations.UmodByZeroFaults :=
  fun _ rd ra _ => ⟨exec_umod_of_divisor_zero rd ra rfl, fun hzero => exec_umod_of_divisor_zero rd ra hzero⟩

end Sys2Proof.Machine
end

section
/-! The statement about the first fetch after reset (spec 70_reset_and_hazards.md R281). -/

namespace Sys2Proof.Machine

open Sys2Proof

/-- Reset puts `pc` at 0, so the fetch reads index 0 of the program, whether a word is there or not (R53, R280). -/
theorem fetchWord_boot (c : Config) : fetchWord (State.boot c) = c.prog[0]? := rfl

/-- Settles O12: the fetch right after reset reads `PROG[0]`, the word the program begins with. -/
theorem firstFetchIsIndexZero : Obligations.FirstFetchIsIndexZero := by
  intro c iw rest hprog
  rw [fetchWord_boot, hprog, List.getElem?_cons_zero]

end Sys2Proof.Machine
end

section
/-! The statements about the encoding (spec 30_encoding.md R100 to R110): encoding and decoding are inverse, a word is
legal exactly when the six checks hold, and the dialect filters two opcodes. -/

namespace Sys2Proof.Machine

open Sys2Proof

/-! ### Round trips -/

/-- Settles O1: the encoding of an instruction is the word of its own fields, and that word decodes to it. -/
theorem decodeOfEncode : Obligations.DecodeOfEncode := by
  intro c i hc hw
  rw [encode_eq_wordOf]
  exact decode_wordOf_of_wf hc hw

/-- The header of a legal word is the one its instruction encodes to (R101). -/
theorem encodeHeader_of_decode_ok {c : Config} {iw : Nat} {i : Instr} (h : decode c iw = .ok i) :
    encodeHeader i = iw / 2 ^ c.W % 65536 := by
  obtain ⟨-, hop, hI, hri, hrj, hz, -⟩ := decode_ok h
  rw [encodeHeader, hop, hI, hri, hrj]
  omega

/-- Settles O2: a word of `16 + W` bits is its header over its operand A, and decoding keeps both. -/
theorem encodeOfDecode : Obligations.EncodeOfDecode := by
  intro c iw i _ hlt h
  obtain ⟨-, -, -, -, -, -, hA⟩ := decode_ok h
  have hheader : iw / 2 ^ c.W < 65536 := Nat.div_lt_of_lt_mul (by rwa [Nat.pow_add, Nat.mul_comm] at hlt)
  rw [encode, encodeHeader_of_decode_ok h, hA, Nat.mod_eq_of_lt hheader]
  exact Nat.div_add_mod' iw (2 ^ c.W)

/-! ### Legality -/

/-- There are two dialects (R6). -/
theorem dialect_eq_v2_iff (c : Config) : c.dialect = .v2_00 ↔ c.dialect ≠ .v1_000 := by
  cases c.dialect <;> simp

/-- A decoded operand A may stand in `store.w` exactly when it is an immediate or the mode admits a register (R109). -/
theorem storeWOk_iff (c : Config) (b : Operand) :
    b.storeWOk c = true ↔ (operandI b = 0 → c.storeWMode = .operand) := by
  cases b <;> simp [Operand.storeWOk, operandI]

/-- Operand A decodes exactly when check 5 of R107 holds. -/
theorem decodeOperand_iff (c : Config) {I A : Nat} (hI : I < 2) :
    (∃ b, decodeOperand c I A = .ok b) ↔ (I = 0 → A / 16 = 0 ∧ A % 16 < c.K) := by
  unfold decodeOperand
  split
  · simp_all
  · have h0 : I = 0 := by omega
    split <;> simp_all

/-- Checks 2, 3, 6 and 4 of R107, on the fields of a header and a decoded operand A. -/
def FieldsLegal (c : Config) (op ri rj : Nat) (b : Operand) : Prop :=
  op ∈ definedOpcodes ∧ (c.dialect = .v1_000 → op ≠ 22 ∧ op ≠ 28) ∧ (op = 28 → b.storeWOk c = true) ∧
  (if op ∈ opcodesUsingRi then ri < c.K else ri = 0) ∧ (if op ∈ opcodesUsingRj then rj < c.K else rj = 0)

/-- The opcode map accepts exactly the fields that pass these checks: each row of the table has its class of register
fields, and the numbers of no row are reserved (R104 to R109). -/
theorem decodeOp_iff (c : Config) (op ri rj : Nat) (b : Operand) :
    (∃ i, decodeOp c op ri rj b = .ok i) ↔ FieldsLegal c op ri rj b := by
  unfold decodeOp FieldsLegal
  split
  case h_23 => simp_all [definedOpcodes]
  all_goals
    simp [form3_iff, formD_iff, formC_iff, formJ_iff, onlyV2_iff, storeWForm_iff, dialect_eq_v2_iff,
      definedOpcodes, opcodesUsingRi, opcodesUsingRj]

/-- A header decodes with a field `A` exactly when its reserved bits are 0, operand A decodes, and the opcode map accepts
its fields (R107). -/
theorem decodeFields_iff (c : Config) (h A : Nat) :
    (∃ i, decodeFields c h A = .ok i) ↔
      h % 4 = 0 ∧ ∃ b, decodeOperand c (h / 1024 % 2) A = .ok b ∧
        FieldsLegal c (h / 2048 % 32) (h / 64 % 16) (h / 4 % 16) b := by
  simp only [← decodeOp_iff, decodeFields_eq]
  by_cases hz : h % 4 = 0
  · cases decodeOperand c (h / 1024 % 2) A <;> simp [hz]
  · simp [hz]

/-- A word decodes exactly when the six checks hold (R107). -/
theorem decode_iff_legalWord (c : Config) (iw : Nat) : (∃ i, decode c iw = .ok i) ↔ LegalWord c iw := by
  rw [decode, decodeFields_iff, headerBits_eq, operandBits]
  unfold LegalWord FieldsLegal
  generalize hh : iw / 2 ^ c.W % 65536 = h
  generalize hA' : iw % 2 ^ c.W = A
  have hlt : A < 2 ^ c.W := hA' ▸ Nat.mod_lt _ (Nat.two_pow_pos c.W)
  have hop : h / 2048 % 32 = h / 2048 := by omega
  rw [hop]
  constructor
  · rintro ⟨hz, b, hb, hdef, hdialect, hstoreW, hregs⟩
    have hI : operandI b = h / 1024 % 2 := (decodeOperand_ok (Nat.mod_lt _ (by decide)) hlt hb).2.1
    rw [storeWOk_iff, hI] at hstoreW
    exact ⟨hz, hdef, hdialect, hregs, (decodeOperand_iff c (Nat.mod_lt _ (by decide))).1 ⟨b, hb⟩, hstoreW⟩
  · rintro ⟨hz, hdef, hdialect, hregs, hoperand, hstoreW⟩
    obtain ⟨b, hb⟩ := (decodeOperand_iff c (Nat.mod_lt _ (by decide))).2 hoperand
    have hI : operandI b = h / 1024 % 2 := (decodeOperand_ok (Nat.mod_lt _ (by decide)) hlt hb).2.1
    rw [← hI, ← storeWOk_iff] at hstoreW
    exact ⟨hz, b, hb, hdef, hdialect, hstoreW, hregs⟩

/-- Settles O3: the decoder's checks are the six of R107, and what it answers is well formed. -/
theorem legalExactlyWhenChecksHold : Obligations.LegalExactlyWhenChecksHold :=
  fun c iw _ => ⟨decode_iff_legalWord c iw, fun _ h => (decode_ok h).1⟩

/-! ### The dialect -/

/-- Only the opcodes of `cnjmp` and `store.w` see the dialect (R108). -/
theorem decodeOp_dialect (c : Config) (d : Dialect) {op : Nat} (ri rj : Nat) (b : Operand) (hcnjmp : op ≠ 22)
    (hstoreW : op ≠ 28) : decodeOp { c with dialect := d } op ri rj b = decodeOp c op ri rj b := by
  unfold decodeOp
  split
  case h_18 => exact absurd rfl hcnjmp
  case h_20 => exact absurd rfl hstoreW
  all_goals rfl

/-- A header of another opcode decodes alike under either dialect (R108). -/
theorem decodeFields_dialect (c : Config) (d : Dialect) {h : Nat} (A : Nat) (hcnjmp : h / 2048 % 32 ≠ 22)
    (hstoreW : h / 2048 % 32 ≠ 28) : decodeFields { c with dialect := d } h A = decodeFields c h A := by
  simp only [decodeFields_eq, decodeOp_dialect c d _ _ _ hcnjmp hstoreW]
  rfl

/-- A word that decodes to an instruction of another opcode decodes alike under either dialect (R108). -/
theorem decode_dialect {c : Config} {iw : Nat} {i : Instr} (h : decode c iw = .ok i) (d : Dialect)
    (hcnjmp : opcodeOf i ≠ 22) (hstoreW : opcodeOf i ≠ 28) : decode { c with dialect := d } iw = .ok i := by
  obtain ⟨-, hop, -⟩ := decode_ok h
  rw [← headerBits_eq] at hop
  exact (decodeFields_dialect c d _ (hop ▸ hcnjmp) (hop ▸ hstoreW)).trans h

/-- Settles O4: an instruction of the configuration that is `cnjmp` or `store.w` has the dialect `V2_00`, and the
decoding of any other opcode does not look at the dialect. -/
theorem dialectFiltersTwoOpcodes : Obligations.DialectFiltersTwoOpcodes := by
  intro c iw i h
  have hw : i.wf c = true := (decode_ok h).1
  refine ⟨?_, fun hcnjmp hstoreW d => decode_dialect h d ?_ ?_⟩
  · rintro (⟨b, rfl⟩ | ⟨b, r, rfl⟩) <;> simp_all [Instr.wf]
  · cases i <;> simp_all [opcodeOf]
  · cases i <;> simp_all [opcodeOf]

/-- Settles O5: the decoder evaluates each of the eight words. -/
theorem specExampleWordsDecode : Obligations.SpecExampleWordsDecode := by
  unfold Obligations.SpecExampleWordsDecode
  decide

end Sys2Proof.Machine
end

section
/-! The statements about the arithmetic instructions (spec 41_arith.md R152 to R156): each writes back its word and its
flag; and the words of a sum and a difference, and of the two products, fit together. -/

namespace Sys2Proof.Machine

open Sys2Proof

/-! ### The words -/

theorem addWord_lt (W a b : Nat) : addWord W a b < 2 ^ W := Nat.mod_lt _ (Nat.two_pow_pos W)

theorem subWord_lt (W a b : Nat) : subWord W a b < 2 ^ W := Nat.mod_lt _ (Nat.two_pow_pos W)

theorem mullWord_lt (W a b : Nat) : mullWord W a b < 2 ^ W := Nat.mod_lt _ (Nat.two_pow_pos W)

/-- The high word of a product of W-bit values fits the word (R154). -/
theorem umulhWord_lt {W a b : Nat} (ha : a < 2 ^ W) (hb : b < 2 ^ W) : umulhWord W a b < 2 ^ W :=
  Nat.div_lt_of_lt_mul (Nat.mul_lt_mul'' ha hb)

/-- A remainder is no larger than what was divided (R155). -/
theorem umodWord_lt {W a : Nat} (b : Nat) (ha : a < 2 ^ W) : umodWord a b < 2 ^ W :=
  (Nat.mod_le a b).trans_lt ha

/-- The difference of two W-bit values, wrapped where it borrows (R152). -/
theorem subWord_eq {W a b : Nat} (ha : a < 2 ^ W) (hb : b < 2 ^ W) :
    subWord W a b = if a ≥ b then a - b else a + 2 ^ W - b := by
  unfold subWord
  split
  · rw [show a + 2 ^ W - b = a - b + 2 ^ W by omega, Nat.add_mod_right, Nat.mod_eq_of_lt (by omega)]
  · exact Nat.mod_eq_of_lt (by omega)

/-- The high word of a product is not 0 exactly when the product does not fit the word (R154). -/
theorem mulFlag_eq_high_ne_zero (W a b : Nat) : mulFlag W a b = decide (a * b / 2 ^ W ≠ 0) :=
  decide_eq_decide.2 (by simp [Nat.div_eq_zero_iff])

/-- Subtracting what was added gives a W-bit value back (R156 law 1). -/
theorem subWord_addWord {W a b : Nat} (ha : a < 2 ^ W) (hb : b < 2 ^ W) : subWord W (addWord W a b) b = a := by
  rw [subWord_eq (addWord_lt W a b) hb, addWord]
  by_cases hcarry : a + b < 2 ^ W
  · rw [Nat.mod_eq_of_lt hcarry]
    simp
  · rw [show (a + b) % 2 ^ W = a + b - 2 ^ W by
      rw [Nat.mod_eq_sub_mod (by omega), Nat.mod_eq_of_lt (by omega)], if_neg (by omega)]
    omega

/-- The two words of a product make it up (R156 law 2). -/
theorem umulhWord_mul_add_mullWord (W a b : Nat) : umulhWord W a b * 2 ^ W + mullWord W a b = a * b :=
  Nat.div_add_mod' (a * b) (2 ^ W)

/-! ### The instructions -/

/-- What `add` does (R151). -/
theorem exec_add (rd ra : Nat) (src : Operand) (s : State) :
    exec (.add rd ra src) s =
      writeBack s rd (addWord s.cfg.W (s.readReg ra) (operandValue s src))
        (addFlag s.cfg.W (s.readReg ra) (operandValue s src)) := rfl

/-- What `sub` does (R152). -/
theorem exec_sub (rd ra : Nat) (src : Operand) (s : State) :
    exec (.sub rd ra src) s =
      writeBack s rd (subWord s.cfg.W (s.readReg ra) (operandValue s src))
        (subFlag (s.readReg ra) (operandValue s src)) := rfl

/-- What `mull` does (R153). -/
theorem exec_mull (rd ra : Nat) (src : Operand) (s : State) :
    exec (.mull rd ra src) s =
      writeBack s rd (mullWord s.cfg.W (s.readReg ra) (operandValue s src))
        (mulFlag s.cfg.W (s.readReg ra) (operandValue s src)) := rfl

/-- What `umulh` does (R154). -/
theorem exec_umulh (rd ra : Nat) (src : Operand) (s : State) :
    exec (.umulh rd ra src) s =
      writeBack s rd (umulhWord s.cfg.W (s.readReg ra) (operandValue s src))
        (mulFlag s.cfg.W (s.readReg ra) (operandValue s src)) := rfl

/-- What `umod` does by a divisor other than 0 (R155). -/
theorem exec_umod_of_divisor_ne_zero {s : State} {src : Operand} (rd ra : Nat) (h : operandValue s src ≠ 0) :
    exec (.umod rd ra src) s = writeBack s rd (umodWord (s.readReg ra) (operandValue s src)) false :=
  if_neg h

/-- Every register of a state in which an instruction is ready holds a W-bit value (R57). -/
theorem Ready.readReg_lt {s : State} {i : Instr} (h : Ready s i) (j : Nat) : s.readReg j < 2 ^ s.cfg.W :=
  Machine.readReg_lt h.2.1 j

/-- Settles O16: `sub` writes back the wrapped difference of two W-bit values and its borrow. -/
theorem subWrapsWithBorrow : Obligations.SubWrapsWithBorrow := by
  intro s rd ra src h
  have ha : s.readReg ra < 2 ^ s.cfg.W := h.readReg_lt ra
  have hb : operandValue s src < 2 ^ s.cfg.W := h.operandValue_lt
  rw [← subWord_eq ha hb]
  exact h.decode_and_writesRegister rfl (exec_sub rd ra src s)

/-- Settles O17: `mull` writes back the low word of the product and "it does not fit". -/
theorem mullLowProduct : Obligations.MullLowProduct :=
  fun s rd ra src h => h.decode_and_writesRegister rfl (exec_mull rd ra src s)

/-- Settles O18: `umulh` writes back the high word of the product and "it does not fit", which is "not 0". -/
theorem umulhHighProduct : Obligations.UmulhHighProduct := by
  intro s rd ra src h
  rw [← mulFlag_eq_high_ne_zero]
  exact h.decode_and_writesRegister rfl (exec_umulh rd ra src s)

/-- Settles O19: `umod` by a divisor other than 0 writes back the remainder, which is below the divisor. -/
theorem umodRemainder : Obligations.UmodRemainder := by
  intro s rd ra src h hne
  obtain ⟨hdec, t, hexec, hwrites⟩ := h.decode_and_writesRegister rfl (exec_umod_of_divisor_ne_zero rd ra hne)
  refine ⟨hdec, t, hexec, hwrites, ?_⟩
  rw [hwrites.value]
  exact Nat.mod_lt _ (Nat.pos_of_ne_zero hne)

/-! ### The laws -/

/-- An operand that is not the register an instruction wrote has the value it had before (R102). -/
theorem WritesRegister.operandValue_eq {s t : State} {rd v : Nat} {f : Bool} {src : Operand}
    (h : WritesRegister s t rd v f) (hsrc : src ≠ .reg rd) : operandValue t src = operandValue s src := by
  cases src with
  | imm v => rfl
  | reg r => exact h.otherRegs r fun heq => hsrc (heq ▸ rfl)

/-- Settles O42: both instructions write back to `rd`, and the second subtracts what the first added. -/
theorem addThenSubRestores : Obligations.AddThenSubRestores := by
  intro s t u rd ra src h hsrc hadd hsub
  have ha : s.readReg ra < 2 ^ s.cfg.W := h.readReg_lt ra
  have hb : operandValue s src < 2 ^ s.cfg.W := h.operandValue_lt
  have hlt : rd < s.x.length := h.destination_lt rfl
  rw [exec_add, writeBack_eq] at hadd
  cases hadd
  rw [exec_sub, writeBack_eq] at hsub
  cases hsub
  have hwrites := writesRegister_writeBack (v := addWord s.cfg.W (s.readReg ra) (operandValue s src))
    (f := addFlag s.cfg.W (s.readReg ra) (operandValue s src)) hlt
  rw [(writesRegister_writeBack (hwrites.regCount ▸ hlt)).value, hwrites.value, hwrites.operandValue_eq hsrc]
  exact subWord_addWord ha hb

/-- Settles O43: the two products of the same operands write back the two words of one product, with one flag. -/
theorem productWordsCompose : Obligations.ProductWordsCompose := by
  intro s rd ra src h
  have hlt : rd < s.x.length := h.destination_lt rfl
  refine ⟨_, _, exec_mull rd ra src s, exec_umulh rd ra src s, ?_, rfl⟩
  rw [(writesRegister_writeBack hlt).value, (writesRegister_writeBack hlt).value]
  exact umulhWord_mul_add_mullWord s.cfg.W _ _

end Sys2Proof.Machine
end

section
/-! The statements about the shifts (spec 42_shift.md R171, R172): the word and the flag of a shift by any amount, in one
formula each. -/

namespace Sys2Proof.Machine

open Sys2Proof

/-- One bit of a value is a quotient mod 2 (R14). -/
theorem bitField_single (v k : Nat) : bitField v k k = v / 2 ^ k % 2 := by simp [bitField]

/-- The word of a left shift, also where every bit of the value is shifted out (R172). -/
theorem shlWord_eq (W a n : Nat) : shlWord W a n = a * 2 ^ n % 2 ^ W := by
  unfold shlWord
  split
  · rename_i hle
    exact (Nat.mod_eq_zero_of_dvd ((Nat.pow_dvd_pow 2 hle).mul_left a)).symm
  · rfl

theorem shlWord_lt (W a n : Nat) : shlWord W a n < 2 ^ W := by
  rw [shlWord_eq]
  exact Nat.mod_lt _ (Nat.two_pow_pos W)

/-- The flag of a left shift is the bit shifted to place W, which is 0 for an amount of 0 and above W (R172). -/
theorem shlFlag_eq {W a : Nat} (n : Nat) (ha : a < 2 ^ W) :
    shlFlag W a n = decide (a * 2 ^ n / 2 ^ W % 2 = 1) := by
  unfold shlFlag
  rcases Nat.lt_or_ge W n with hgt | hle
  · have heven : a * 2 ^ n / 2 ^ W = a * 2 ^ (n - W - 1) * 2 := by
      rw [show n = n - W - 1 + 1 + W by omega, Nat.pow_add, ← Nat.mul_assoc, Nat.mul_div_cancel _ (Nat.two_pow_pos W)]
      simp [Nat.pow_succ, Nat.mul_assoc]
    simp [heven, Nat.not_le.2 hgt]
  · have hbit : a * 2 ^ n / 2 ^ W = a / 2 ^ (W - n) := by
      rw [show 2 ^ W = 2 ^ (W - n) * 2 ^ n by rw [← Nat.pow_add, Nat.sub_add_cancel hle]]
      exact Nat.mul_div_mul_right a _ (Nat.two_pow_pos n)
    rw [hbit, bitField_single]
    rcases Nat.eq_zero_or_pos n with rfl | hpos
    · simp [Nat.div_eq_of_lt ha]
    · rw [if_pos ⟨hpos, hle⟩]

/-- The word of a right shift, also where every bit of the value is shifted out (R171). -/
theorem shrWord_eq {W a : Nat} (n : Nat) (ha : a < 2 ^ W) : shrWord W a n = a / 2 ^ n := by
  unfold shrWord
  split
  · rename_i hle
    exact (Nat.div_eq_of_lt (ha.trans_le (Nat.pow_le_pow_right (by decide) hle))).symm
  · rfl

theorem shrWord_lt {W a : Nat} (n : Nat) (ha : a < 2 ^ W) : shrWord W a n < 2 ^ W := by
  rw [shrWord_eq n ha]
  exact (Nat.div_le_self a _).trans_lt ha

/-- The flag of a right shift is the last bit shifted out, which is 0 above W (R171). -/
theorem shrFlag_eq {W a : Nat} (n : Nat) (ha : a < 2 ^ W) :
    shrFlag W a n = decide (1 ≤ n ∧ a.testBit (n - 1) = true) := by
  unfold shrFlag
  rw [bitField_single, ← Nat.testBit_eq_decide_div_mod_eq]
  by_cases hle : n ≤ W
  · by_cases hpos : 1 ≤ n <;> simp [hpos, hle]
  · have hzero : a.testBit (n - 1) = false :=
      Nat.testBit_lt_two_pow (ha.trans_le (Nat.pow_le_pow_right (by decide) (by omega)))
    simp [hle, hzero]

/-- What `shl` does (R172). -/
theorem exec_shl (rd ra : Nat) (src : Operand) (s : State) :
    exec (.shl rd ra src) s =
      writeBack s rd (shlWord s.cfg.W (s.readReg ra) (operandValue s src))
        (shlFlag s.cfg.W (s.readReg ra) (operandValue s src)) := rfl

/-- What `shr` does (R171). -/
theorem exec_shr (rd ra : Nat) (src : Operand) (s : State) :
    exec (.shr rd ra src) s =
      writeBack s rd (shrWord s.cfg.W (s.readReg ra) (operandValue s src))
        (shrFlag s.cfg.W (s.readReg ra) (operandValue s src)) := rfl

/-- Settles O21: `shl` writes back the word and the flag of one formula for every amount. -/
theorem shlShiftsWholeAmount : Obligations.ShlShiftsWholeAmount := by
  intro s rd ra src h
  have ha : s.readReg ra < 2 ^ s.cfg.W := h.readReg_lt ra
  rw [← shlWord_eq, ← shlFlag_eq _ ha]
  exact h.decode_and_writesRegister rfl (exec_shl rd ra src s)

/-- Settles O22: `shr` writes back the word and the flag of one formula for every amount. -/
theorem shrShiftsWholeAmount : Obligations.ShrShiftsWholeAmount := by
  intro s rd ra src h
  have ha : s.readReg ra < 2 ^ s.cfg.W := h.readReg_lt ra
  rw [← shrWord_eq _ ha, ← shrFlag_eq _ ha]
  exact h.decode_and_writesRegister rfl (exec_shr rd ra src s)

end Sys2Proof.Machine
end

section
/-! The statements about the other bitwise instructions (spec 43_logic.md R181, R182, R183): what their words are bit by
bit. -/

namespace Sys2Proof.Machine

open Sys2Proof

theorem andWord_lt {W : Nat} (a : Nat) {b : Nat} (hb : b < 2 ^ W) : andWord a b < 2 ^ W := Nat.and_lt_two_pow a hb

theorem orWord_lt {W a b : Nat} (ha : a < 2 ^ W) (hb : b < 2 ^ W) : orWord a b < 2 ^ W := Nat.or_lt_two_pow ha hb

theorem notWord_lt (W b : Nat) : notWord W b < 2 ^ W := by
  have := Nat.two_pow_pos W
  unfold notWord
  omega

/-- Bit `k` of the word is set when both operands' bits are (R181). -/
theorem testBit_andWord (a b k : Nat) : (andWord a b).testBit k = (a.testBit k && b.testBit k) := Nat.testBit_and a b k

/-- Bit `k` of the word is set when one of the operands' bits is (R182). -/
theorem testBit_orWord (a b k : Nat) : (orWord a b).testBit k = (a.testBit k || b.testBit k) := Nat.testBit_or a b k

/-- Each of the W bits of the word is the inverse of the operand's (R183). -/
theorem testBit_notWord {W b k : Nat} (hb : b < 2 ^ W) (hk : k < W) : (notWord W b).testBit k = !b.testBit k := by
  rw [notWord, Nat.sub_sub, Nat.add_comm 1, Nat.testBit_two_pow_sub_succ hb]
  simp [hk]

/-- Settles O24: `and` writes back the conjunction of two W-bit values and a cleared flag. -/
theorem andBitwise : Obligations.AndBitwise := by
  intro s rd ra src h
  have hb : operandValue s src < 2 ^ s.cfg.W := h.operandValue_lt
  obtain ⟨hdec, t, hexec, hwrites⟩ := h.decode_and_writesRegister rfl rfl
  exact ⟨hdec, t, _, hexec, hwrites, andWord_lt _ hb, testBit_andWord _ _⟩

/-- Settles O25: `or` writes back the disjunction of two W-bit values and a cleared flag. -/
theorem orBitwise : Obligations.OrBitwise := by
  intro s rd ra src h
  have ha : s.readReg ra < 2 ^ s.cfg.W := h.readReg_lt ra
  have hb : operandValue s src < 2 ^ s.cfg.W := h.operandValue_lt
  obtain ⟨hdec, t, hexec, hwrites⟩ := h.decode_and_writesRegister rfl rfl
  exact ⟨hdec, t, _, hexec, hwrites, orWord_lt ha hb, testBit_orWord _ _⟩

/-- Settles O26: `not` writes back the inverse of a W-bit value and a cleared flag. -/
theorem notInvertsWordBits : Obligations.NotInvertsWordBits := by
  intro s rd src h
  have hb : operandValue s src < 2 ^ s.cfg.W := h.operandValue_lt
  obtain ⟨hdec, t, hexec, hwrites⟩ := h.decode_and_writesRegister rfl rfl
  exact ⟨hdec, t, _, hexec, hwrites, notWord_lt _ _, fun _ hk => testBit_notWord hb hk⟩

end Sys2Proof.Machine
end

section
/-! The statements about `read` at the end of a tape, the stores that complete, a misaligned `store.w`, and `answer`
(spec 46_read.md R210, 47_store.md R220, R221, 48_answer.md R230). -/

namespace Sys2Proof.Machine

open Sys2Proof

/-! ### `read` at the end of a tape -/

/-- Tape 0 or 1 at its end, and an index that names no tape, have no unread word (R210, R211). -/
theorem State.tapeHead_eq_none {s : State} {t : Nat} (h0 : t = 0 → s.cfg.tape0.length ≤ s.tcur0)
    (h1 : t = 1 → s.cfg.tape1.length ≤ s.tcur1) : s.tapeHead t = none := by
  match t with
  | 0 => exact List.getElem?_eq_none (h0 rfl)
  | 1 => exact List.getElem?_eq_none (h1 rfl)
  | _ + 2 => rfl

/-- A `read` that finds no word writes back 0 with the flag set (R210). -/
theorem exec_read_of_tapeHead_none {s : State} {rd t : Nat} {src : Operand} (ht : operandValue s src = t)
    (hw : s.tapeHead t = none) : exec (.read rd src) s = writeBack s rd 0 true := by
  simp only [exec_read, execRead, ht, hw]

/-- Settles O34: the tape the operand selects has no unread word, so `read` writes back 0 and a set flag. -/
theorem readPastEndSetsFlag : Obligations.ReadPastEndSetsFlag := by
  intro s rd src h h0 h1
  have hnone : s.tapeHead (operandValue s src) = none := State.tapeHead_eq_none h0 h1
  exact (h.decode_and_writesRegister rfl (exec_read_of_tapeHead_none rfl hnone)).2

/-! ### The stores -/

/-- The store of a word in memory and outside the read-only segment (R75, R76). -/
theorem storeWord_of_writable {s : State} {widx v : Nat} (hin : widx < s.cfg.memWords)
    (hw : roLimit s.cfg ≤ widx) : storeWord s widx v = .next (s.writeMem widx v).advance :=
  storeWord_of_checkedWrite (checkedWrite_some hin hw)

/-- There is no read-only segment under `flat`, and under `hv` it has `RO_WORDS` words (R7). -/
theorem roLimit_le {c : Config} {widx : Nat} (h : c.memModel = .hv → c.roWords ≤ widx) : roLimit c ≤ widx := by
  cases hm : c.memModel with
  | flat => simp [roLimit, hm]
  | hv => rw [roLimit_of_hv hm]; exact h hm

/-- Settles O35: `store` is the store of the word its operand names, which passes both checks. -/
theorem storeWritesWord : Obligations.StoreWritesWord := by
  intro s dest rs h
  obtain ⟨hc, -, hwf⟩ := h
  refine ⟨decode_wordOf_of_wf hc hwf, fun hin hro => ⟨_, ?_, storesWord_writeMem_advance s _ _⟩⟩
  exact (exec_store dest rs s).trans (storeWord_of_writable hin (roLimit_le hro))

/-- Settles O36: `store.w` at the byte offset of word `widx` is the store of that word, which passes both checks. -/
theorem storeWWritesWord : Obligations.StoreWWritesWord := by
  intro s dest rs h
  obtain ⟨hc, -, hwf⟩ := h
  refine ⟨decode_wordOf_of_wf hc hwf, fun widx hb hin hro => ⟨_, ?_, storesWord_writeMem_advance s _ _⟩⟩
  exact (execStoreW_of_byteOffset hc hb).trans (storeWord_of_writable hin (roLimit_le hro))

/-- Settles O37: both instructions are the store of word `i`. -/
theorem storeWAgreesWithStore : Obligations.StoreWAgreesWithStore :=
  fun s i rs hc => (execStoreW_of_byteOffset hc rfl).trans (exec_store (.imm i) rs s).symm

/-- Settles O40: the test of the alignment stands before both checks of the word index. -/
theorem misalignedStoreWFaults : Obligations.MisalignedStoreWFaults :=
  fun _ _ rs h => exec_storeW_of_not_aligned rs fun haligned => h (of_decide_eq_true haligned)

/-! ### `answer` -/

/-- Settles O41: `answer` halts, and a core that is not running stays as it is. -/
theorem answerHalts : Obligations.AnswerHalts := by
  intro s code h
  obtain ⟨hc, -, hwf⟩ := h
  exact ⟨decode_wordOf_of_wf hc hwf, _, exec_answer code s, rfl, rfl, rfl, rfl, step_of_stopped hc (by simp)⟩

end Sys2Proof.Machine
end

section
/-! The statements about the step (spec 10_state.md R50) and reset (70_reset_and_hazards.md R280): which faults come
before execution and in what order, that a step always answers, and what each step leaves in the pc, the flag and the
status registers. -/

namespace Sys2Proof.Machine

open Sys2Proof

/-! ### Before the instruction executes -/

/-- The step limit is reached at `L` completed instructions (R245). -/
theorem stepLimitReached_of_le {s : State} {l : Nat} (hl : s.cfg.stepLimit = some l) (hle : l ≤ s.steps) :
    stepLimitReached s = true := by
  simp [stepLimitReached, hl, hle]

theorem stepLimitReached_eq_false_iff (s : State) :
    stepLimitReached s = false ↔ ∀ l, s.cfg.stepLimit = some l → s.steps < l := by
  unfold stepLimitReached
  cases s.cfg.stepLimit <;> simp

/-- The step limit comes before the fetch (R251). -/
theorem fetchDecode_of_stepLimitReached {s : State} (h : stepLimitReached s = true) :
    fetchDecode s = .error .stepLimitExceeded := by
  simp [fetchDecode, h]

/-- A fetched word that decodes is the instruction of the step (R50). -/
theorem fetchDecode_of_decode_ok {s : State} {iw : Nat} {i : Instr} (hl : stepLimitReached s = false)
    (hw : s.cfg.prog[s.pc]? = some iw) (hd : decode s.cfg iw = .ok i) : fetchDecode s = .ok i := by
  simp [fetchDecode, fetchWord, hl, hw, hd]

/-- Settles O6: under the limit the word at `pc` is fetched and decoded, and the step is that instruction. -/
theorem stepRunsDecodedInstruction : Obligations.StepRunsDecodedInstruction := fun s _ _ hc hr hl hw hd =>
  step_of_fetchDecode hc hr (fetchDecode_of_decode_ok ((stepLimitReached_eq_false_iff s).2 hl) hw hd)

/-- Settles O7: each of the three faults ends the fetch when no earlier one does; a legal word decodes and executes. -/
theorem faultPriorityBeforeExecution : Obligations.FaultPriorityBeforeExecution := by
  intro s hc hr
  refine ⟨fun l hl hle => ?_, fun hbelow => ?_⟩
  · exact step_of_fetchDecode_error hc hr (fetchDecode_of_stepLimitReached (stepLimitReached_of_le hl hle))
  have hlimit : stepLimitReached s = false := (stepLimitReached_eq_false_iff s).2 hbelow
  refine ⟨fun hout => ?_, fun iw hw => ⟨fun hillegal => ?_, fun hlegal => ?_⟩⟩
  · exact step_of_fetchDecode_error hc hr (fetchDecode_of_prog_length_le hlimit hout)
  · rw [← decode_iff_legalWord] at hillegal
    cases hd : decode s.cfg iw with
    | ok i => exact absurd ⟨i, hd⟩ hillegal
    | error e => exact step_of_fetchDecode_error hc hr (fetchDecode_of_decode_error hlimit hw hd)
  · obtain ⟨i, hd⟩ := (decode_iff_legalWord s.cfg iw).2 hlegal
    exact ⟨i, hd, stepRunsDecodedInstruction s iw i hc hr hbelow hw hd⟩

/-- A step in a configuration that breaks a constraint is refused (R13). -/
theorem step_of_not_configOk {s : State} (hc : ¬ configOk s.cfg = true) :
    step s = .refused .invalidConfiguration := by
  simp [step, hc]

/-- Settles O8: a stopped core stays, a fault before execution is entered, and every meaning answers. -/
theorem stepAlwaysAnswers : Obligations.StepAlwaysAnswers := by
  intro s
  split
  · rename_i hc
    by_cases hr : s.status = .running
    · cases hf : fetchDecode s with
      | error f => exact ⟨_, step_of_fetchDecode_error hc hr hf⟩
      | ok i => rw [step_of_fetchDecode hc hr hf]; exact exec_answers i s
    · exact ⟨s, step_of_stopped hc hr⟩
  · rename_i hc
    exact step_of_not_configOk hc

/-- Settles O11: `reset` is the boot state of the same parameters. -/
theorem resetPutsEveryRegister : Obligations.ResetPutsEveryRegister := by
  intro s
  rw [State.resetPin_eq_boot]
  exact ⟨rfl, List.length_replicate, readReg_boot s.cfg, rfl, rfl, readMem_boot s.cfg, rfl, rfl, rfl, rfl, rfl, rfl⟩

/-! ### What a step leaves in the status registers and the pc -/

/-- Settles O46: a completed instruction leaves the core running and `answer` halts it, so a step that leaves it
faulted entered a fault. -/
theorem faultsArePrecise : Obligations.FaultsArePrecise := by
  intro s t hr h hfaulted
  rcases step_running_cases hr h with ⟨f, rfl⟩ | ⟨i, -, -, hc⟩ | ⟨code, -, rfl⟩
  · exact ⟨f, enterFault_eq_faultedState s f⟩
  · simp [hc.status, hr] at hfaulted
  · simp at hfaulted

/-- Settles O49: of the three ends of a step of a running core, a completed instruction keeps `STATUS`. -/
theorem statusChangesOnlyByAnswerOrFault : Obligations.StatusChangesOnlyByAnswerOrFault := by
  intro s t h hne
  have hr : s.status = .running := by
    rcases (step_cases h).2 with ⟨-, rfl⟩ | ⟨hr, -⟩
    · exact absurd rfl hne
    · exact hr
  refine ⟨hr, ?_⟩
  rcases step_running_cases hr h with ⟨f, rfl⟩ | ⟨i, -, -, hc⟩ | ⟨code, hf, rfl⟩
  · exact .inr ⟨rfl, by simp⟩
  · exact absurd hc.status hne
  · exact .inl ⟨rfl, code, hf⟩

/-- Settles O50: a fault keeps `STEPS`; a completed instruction and `answer` add one. -/
theorem stepsCountsCompleted : Obligations.StepsCountsCompleted := by
  intro s t hr h
  rcases step_running_cases hr h with ⟨f, rfl⟩ | ⟨i, -, -, hc⟩ | ⟨code, -, rfl⟩
  · simp
  · simp [hc.status, hc.steps, hr]
  · simp

/-- Settles O51: a fault keeps `pc`; a completed instruction leaves the multiplexer's, and `answer` its own index. -/
theorem nextPcIsTheMultiplexer : Obligations.NextPcIsTheMultiplexer := by
  intro s t hr h
  rcases step_running_cases hr h with ⟨f, rfl⟩ | ⟨i, hi, -, hc⟩ | ⟨code, hi, rfl⟩
  · exact ⟨fun _ => rfl, fun hne => absurd rfl hne⟩
  · exact ⟨fun hf => by simp [hc.status, hr] at hf, fun _ => ⟨i, hi, hc.pc⟩⟩
  · exact ⟨fun _ => rfl, fun _ => ⟨.answer code, hi, rfl⟩⟩

end Sys2Proof.Machine
end

section
/-! The statement about the flag (spec 10_state.md R36): what each instruction that completes leaves in it. -/

namespace Sys2Proof.Machine

open Sys2Proof

/-! ### The table's terms -/

/-- A bit of a shift's table entry, as the model writes it (R171, R172). -/
theorem shiftFlag_eq_table {W a n k : Nat} :
    (if 1 ≤ n ∧ n ≤ W then decide (bitField a k k = 1) else false) =
      decide (1 ≤ n ∧ n ≤ W ∧ a / 2 ^ k % 2 = 1) := by
  rw [bitField_single]
  by_cases hn : 1 ≤ n ∧ n ≤ W
  · simp [hn]
  · rw [if_neg hn]
    exact (decide_eq_false fun h => hn ⟨h.1, h.2.1⟩).symm

/-- A tape has an unread word exactly when its cursor is before its end (R211). -/
theorem State.tapeHead_eq_none_iff (s : State) (t : Nat) :
    s.tapeHead t = none ↔ (tapeOf s.cfg t).length ≤ s.cursor t :=
  List.getElem?_eq_none_iff

/-- `read` leaves the flag of the table (R36, R210). -/
theorem execRead_flag {s t : State} {rd : Nat} {src : Operand} (h : execRead rd src s = .next t) :
    t.flag = flagTable s (.read rd src) := by
  simp only [execRead] at h
  simp only [flagTable, ← State.tapeHead_eq_none_iff]
  split at h
  · rename_i w hw
    cases h
    simp [hw]
  · rename_i hw
    cases h
    simp [hw]

/-- `umod` leaves the flag of the table or takes a fault (R36, R155). -/
theorem execUmod_flag {s t : State} {rd ra : Nat} {src : Operand} (h : execUmod rd ra src s = .next t) :
    t.flag = flagTable s (.umod rd ra src) ∨ ∃ f, t = s.enterFault f := by
  simp only [execUmod] at h
  split at h
  · cases h
    exact .inr ⟨_, rfl⟩
  · cases h
    exact .inl rfl

/-- `store` writes one word or takes a fault (R222). -/
theorem exec_store_ends {s t : State} {dest : Operand} {rs : Nat} (h : exec (.store dest rs) s = .next t) :
    (∃ widx v, StoresWord s t widx v) ∨ ∃ f, t = s.enterFault f :=
  ((storeWritesOneWordOrNone s t dest rs).1 h).symm.imp (fun hs => ⟨_, _, hs.1⟩) fun ⟨f, hf⟩ => ⟨f, hf.1⟩

/-- `store.w` writes one word or takes a fault (R222). -/
theorem exec_storeW_ends {s t : State} {dest : Operand} {rs : Nat} (h : exec (.storeW dest rs) s = .next t) :
    (∃ widx v, StoresWord s t widx v) ∨ ∃ f, t = s.enterFault f :=
  ((storeWritesOneWordOrNone s t dest rs).2 h).symm.imp (fun hs => ⟨_, _, hs.1⟩) fun ⟨f, hf⟩ => ⟨f, hf.1⟩

/-- An instruction that is ready leaves the flag of the table or takes a fault (R36). -/
theorem Ready.exec_flag {i : Instr} {s t : State} (h : Ready s i) (he : exec i s = .next t) :
    t.flag = flagTable s i ∨ ∃ f, t = s.enterFault f := by
  cases i with
  | add rd ra src => cases he; exact .inl (addFlag_eq_carry (h.readReg_lt ra) h.operandValue_lt)
  | shl rd ra src => cases he; exact .inl shiftFlag_eq_table
  | shr rd ra src => cases he; exact .inl shiftFlag_eq_table
  | read rd src => exact .inl (execRead_flag he)
  | umod rd ra src => exact execUmod_flag he
  | store dest rs => exact (exec_store_ends he).imp_left fun ⟨_, _, hs⟩ => hs.flagSame
  | storeW dest rs => exact (exec_storeW_ends he).imp_left fun ⟨_, _, hs⟩ => hs.flagSame
  | _ => cases he; exact .inl rfl

/-- An instruction that a step decodes is ready where the register file has its shape. -/
theorem ready_of_fetchDecode {s : State} {i : Instr} (hc : configOk s.cfg = true) (hregs : s.regsOk = true)
    (h : fetchDecode s = .ok i) : Ready s i :=
  ⟨hc, hregs, fetchDecode_wf h⟩

/-- Settles O52: a fault keeps the flag, `answer` keeps it as the table says, and every other instruction leaves the
flag of the table or takes a fault. -/
theorem flagFollowsTheTable : Obligations.FlagFollowsTheTable := by
  intro s t hregs hr h
  have hc : configOk s.cfg = true := (step_cases h).1
  rcases step_running_cases hr h with ⟨f, rfl⟩ | ⟨i, hi, he, -⟩ | ⟨code, hi, rfl⟩
  · exact ⟨fun _ => rfl, fun hne => absurd rfl hne⟩
  · rcases (ready_of_fetchDecode hc hregs hi).exec_flag he with hflag | ⟨f, rfl⟩
    · refine ⟨fun hf => ?_, fun _ => ⟨i, hi, hflag⟩⟩
      obtain ⟨f, rfl⟩ := faultsArePrecise s t hr h hf
      rfl
    · exact ⟨fun _ => rfl, fun hne => absurd rfl hne⟩
  · exact ⟨fun _ => rfl, fun _ => ⟨.answer code, hi, rfl⟩⟩

end Sys2Proof.Machine
end

section
/-! The invariant of reachable states (spec 10_state.md R57, R32; 20_memory.md R76; 60_exceptions.md R245): it holds after
reset, and each of the three ends of a step keeps it. -/

namespace Sys2Proof.Machine

open Sys2Proof

/-! ### The register file -/

/-- A write back of a W-bit result keeps the shape of the register file (R32). -/
theorem regsOk_of_writeBack {s t : State} {rd v : Nat} {f : Bool} (h : s.regsOk = true) (hv : v < 2 ^ s.cfg.W)
    (he : writeBack s rd v f = .next t) : t.regsOk = true := by
  cases he
  exact regsOk_congr rfl rfl (regsOk_writeReg h hv)

/-- Both ends of a store keep the shape of the register file. -/
theorem regsOk_of_store {s t : State} (h : s.regsOk = true)
    (hends : (∃ widx v, StoresWord s t widx v) ∨ ∃ f, t = s.enterFault f) : t.regsOk = true := by
  rcases hends with ⟨widx, v, hs⟩ | ⟨f, rfl⟩
  · rw [hs.rest]; exact h
  · exact h

/-- The words on the tapes are W-bit words (R9). -/
theorem tapeHead_lt {s : State} {t w : Nat} (hc : configOk s.cfg = true) (h : s.tapeHead t = some w) :
    w < 2 ^ s.cfg.W := by
  simp only [configOk, Bool.and_eq_true, List.all_eq_true, decide_eq_true_eq] at hc
  obtain ⟨⟨⟨-, htape0⟩, htape1⟩, -⟩ := hc
  rcases tapeHead_some h with ⟨-, -, hw⟩ | ⟨-, -, hw⟩
  · exact htape0 w (List.mem_of_getElem? hw)
  · exact htape1 w (List.mem_of_getElem? hw)

/-- `read` keeps the shape of the register file. -/
theorem execRead_regsOk {s t : State} {rd : Nat} {src : Operand} (hc : configOk s.cfg = true)
    (hregs : s.regsOk = true) (h : execRead rd src s = .next t) : t.regsOk = true := by
  simp only [execRead] at h
  split at h
  · rename_i w hw
    have hbump : (s.bumpCursor (operandValue s src)).regsOk = true :=
      regsOk_congr (State.bumpCursor_cfg s _) (State.bumpCursor_x s _) hregs
    exact regsOk_of_writeBack hbump (by simpa using tapeHead_lt hc hw) h
  · exact regsOk_of_writeBack hregs (Nat.two_pow_pos _) h

/-- An instruction that is ready keeps the shape of the register file: what it writes back is a W-bit word (R57). -/
theorem Ready.exec_regsOk {i : Instr} {s t : State} (h : Ready s i) (he : exec i s = .next t) :
    t.regsOk = true := by
  have ⟨hc, hregs, _⟩ := h
  have ha := h.readReg_lt
  have hb := h.operandValue_lt
  cases i with
  | and rd ra src => exact regsOk_of_writeBack hregs (andWord_lt _ hb) he
  | or rd ra src => exact regsOk_of_writeBack hregs (orWord_lt (ha ra) hb) he
  | xor rd ra src => exact regsOk_of_writeBack hregs (xorWord_lt (ha ra) hb) he
  | not rd src => exact regsOk_of_writeBack hregs (notWord_lt _ _) he
  | add rd ra src => exact regsOk_of_writeBack hregs (addWord_lt _ _ _) he
  | sub rd ra src => exact regsOk_of_writeBack hregs (subWord_lt _ _ _) he
  | mull rd ra src => exact regsOk_of_writeBack hregs (mullWord_lt _ _ _) he
  | umulh rd ra src => exact regsOk_of_writeBack hregs (umulhWord_lt (ha ra) hb) he
  | shl rd ra src => exact regsOk_of_writeBack hregs (shlWord_lt _ _ _) he
  | shr rd ra src => exact regsOk_of_writeBack hregs (shrWord_lt _ (ha ra)) he
  | mov rd src => exact regsOk_of_writeBack hregs hb he
  | read rd src => exact execRead_regsOk hc hregs he
  | umod rd ra src =>
    by_cases hzero : operandValue s src = 0
    · rw [exec_umod_of_divisor_zero rd ra hzero] at he
      cases he
      exact hregs
    · rw [exec_umod_of_divisor_ne_zero rd ra hzero] at he
      exact regsOk_of_writeBack hregs (umodWord_lt _ (ha ra)) he
  | store dest rs => exact regsOk_of_store hregs (exec_store_ends he)
  | storeW dest rs => exact regsOk_of_store hregs (exec_storeW_ends he)
  | _ => cases he; exact hregs

/-! ### The pc and memory -/

/-- The multiplexer selects a W-bit index (R39, R200). -/
theorem Ready.pcMux_lt {i : Instr} {s : State} (h : Ready s i) (hpc : s.pc < 2 ^ s.cfg.W) :
    pcMux s i < 2 ^ s.cfg.W := by
  have htarget := h.operandValue_lt
  have hseq : (s.pc + 1) % 2 ^ s.cfg.W < 2 ^ s.cfg.W := Nat.mod_lt _ (Nat.two_pow_pos _)
  cases i with
  | jmp b => exact htarget
  | cjmp b => simp only [pcMux]; split; exacts [htarget, hseq]
  | cnjmp b => simp only [pcMux]; split; exacts [htarget, hseq]
  | answer code => exact hpc
  | _ => exact hseq

/-- A write that passes the checks is to a word of memory outside the read-only segment, and carries its data
(R75, R76). -/
theorem checkedWrite_eq_some {s : State} {i v a w : Nat} (h : checkedWrite s i v = some (a, w)) :
    w = v ∧ a < s.cfg.memWords ∧ roLimit s.cfg ≤ a := by
  unfold checkedWrite at h
  split at h
  · rename_i hpass
    cases h
    exact ⟨rfl, hpass.1, Nat.not_lt.1 hpass.2⟩
  · cases h

/-- What the write port carries is a register's value, for a word of memory outside the read-only segment (R54, R75,
R76). -/
theorem storePort_eq_some {s : State} {i : Instr} {a w : Nat} (h : storePort s i = some (a, w)) :
    (∃ rs, w = s.readReg rs) ∧ a < s.cfg.memWords ∧ roLimit s.cfg ≤ a := by
  cases i with
  | store dest rs => exact (checkedWrite_eq_some h).imp_left fun hw => ⟨rs, hw⟩
  | storeW dest rs =>
    simp only [storePort] at h
    split at h
    · exact (checkedWrite_eq_some h).imp_left fun hw => ⟨rs, hw⟩
    · cases h
  | _ => cases h

/-- What memory is listed as under the invariant: canonical, in range and outside the read-only segment (R57, R76). -/
structure MemOk (c : Config) (m : Memory) : Prop where
  canonical : Memory.wf c m = true
  listed : ∀ p ∈ m, p.1 < c.memWords ∧ p.2 < 2 ^ c.W ∧ roLimit c ≤ p.1

/-- A write of a W-bit word to a writable index keeps memory so. -/
theorem MemOk.memWrite {c : Config} {m : Memory} {a w : Nat} (h : MemOk c m) (ha : a < c.memWords)
    (hro : roLimit c ≤ a) (hw : w < 2 ^ c.W) : MemOk c (memWrite c m a w) where
  canonical := memWrite_wf a w h.canonical
  listed p hp := by
    rcases mem_memWrite hp with rfl | hp
    · exact ⟨ha, hw, hro⟩
    · exact h.listed p hp

theorem State.Inv.memOk {s : State} (h : s.Inv) : MemOk s.cfg s.mem :=
  ⟨h.memCanonical, fun p hp => ⟨(h.memFits p hp).1, (h.memFits p hp).2, h.memWritable p hp⟩⟩

/-- A completed instruction keeps memory so: it leaves it, or writes what the port carries. -/
theorem Completes.memOk {i : Instr} {s t : State} (hc : Completes i s t) (h : s.Inv) : MemOk t.cfg t.mem := by
  rw [hc.cfg, hc.mem]
  cases hp : storePort s i with
  | none => exact h.memOk
  | some p =>
    obtain ⟨⟨rs, hw⟩, ha, hro⟩ := storePort_eq_some hp
    exact h.memOk.memWrite ha hro (hw ▸ readReg_lt h.regs rs)

/-! ### The invariant -/

/-- The state after reset has the invariant, whatever the parameters (R57, R280). -/
theorem boot_inv {c : Config} (hc : configOk c = true) : (State.boot c).Inv where
  cfgOk := hc
  regs := by simp [regsOk_iff]
  pcFits := Nat.two_pow_pos _
  haltCodeFits := Nat.two_pow_pos _
  memCanonical := boot_mem_wf c
  memFits := by simp
  memWritable := by simp
  tape0Bound := Nat.zero_le _
  tape1Bound := Nat.zero_le _
  runningClean _ := ⟨rfl, rfl⟩
  haltedClean _ := rfl
  faultedCause h := by cases h
  withinLimit _ _ := Nat.zero_le _

/-- Settles O45: the configuration of `State.reset` obeys R13, and reset gives the invariant in every one that does. -/
theorem resetHasInvariant : Obligations.ResetHasInvariant :=
  ⟨boot_inv (by decide), fun _ hc => boot_inv hc⟩

/-- A fault of a running core keeps the invariant: it records its cause, and no halt code stands beside it (R249). -/
theorem State.Inv.enterFault {s : State} (h : s.Inv) (hr : s.status = .running) (f : Fault) :
    (s.enterFault f).Inv :=
  { h with
    runningClean := by simp
    haltedClean := by simp
    faultedCause := fun _ => ⟨by simp, (h.runningClean hr).2⟩ }

/-- Halting under the limit with a W-bit code keeps the invariant (R230, R245). -/
theorem State.Inv.halt {s : State} (h : s.Inv) (hr : s.status = .running) {code : Nat}
    (hcode : code < 2 ^ s.cfg.W) (hl : ∀ l, s.cfg.stepLimit = some l → s.steps < l) : (s.halt code).Inv :=
  { h with
    haltCodeFits := hcode
    runningClean := by simp
    haltedClean := fun _ => (h.runningClean hr).1
    faultedCause := by simp
    withinLimit := hl }

/-- A completed instruction under the limit keeps the invariant (R50, R57). -/
theorem State.Inv.completes {i : Instr} {s t : State} (h : s.Inv) (hready : Ready s i) (he : exec i s = .next t)
    (hc : Completes i s t) (hl : ∀ l, s.cfg.stepLimit = some l → s.steps < l) : t.Inv where
  cfgOk := by rw [hc.cfg]; exact h.cfgOk
  regs := hready.exec_regsOk he
  pcFits := by rw [hc.cfg, hc.pc]; exact hready.pcMux_lt h.pcFits
  haltCodeFits := by rw [hc.cfg, hc.haltCode]; exact h.haltCodeFits
  memCanonical := (hc.memOk h).canonical
  memFits p hp := ⟨((hc.memOk h).listed p hp).1, ((hc.memOk h).listed p hp).2.1⟩
  memWritable p hp := ((hc.memOk h).listed p hp).2.2
  tape0Bound := by rw [hc.cfg]; exact cursor_le_of_move h.tape0Bound hc.tcur0
  tape1Bound := by rw [hc.cfg]; exact cursor_le_of_move h.tape1Bound hc.tcur1
  runningClean := by rw [hc.status, hc.faultCause, hc.haltCode]; exact h.runningClean
  haltedClean := by rw [hc.status, hc.faultCause]; exact h.haltedClean
  faultedCause := by rw [hc.status, hc.faultCause, hc.haltCode]; exact h.faultedCause
  withinLimit := by rw [hc.cfg, hc.steps]; exact hl

/-- A step that decoded an instruction was under the limit (R245). -/
theorem steps_lt_of_fetchDecode {s : State} {i : Instr} (h : fetchDecode s = .ok i) :
    ∀ l, s.cfg.stepLimit = some l → s.steps < l :=
  (stepLimitReached_eq_false_iff s).1 (fetchDecode_ok h).1

/-- Settles O44: a stopped core stays, and each end of a step of a running one keeps the invariant. -/
theorem stepKeepsInvariant : Obligations.StepKeepsInvariant := by
  intro s t hinv h
  by_cases hr : s.status = .running
  · rcases step_running_cases hr h with ⟨f, rfl⟩ | ⟨i, hi, he, hc⟩ | ⟨code, hi, rfl⟩
    · exact hinv.enterFault hr f
    · exact hinv.completes (ready_of_fetchDecode hinv.cfgOk hinv.regs hi) he hc (steps_lt_of_fetchDecode hi)
    · have hready : Ready s (.answer code) := ready_of_fetchDecode hinv.cfgOk hinv.regs hi
      exact hinv.halt hr hready.operandValue_lt (steps_lt_of_fetchDecode hi)
  · rw [step_of_stopped hinv.cfgOk hr] at h
    cases h
    exact hinv

/-! ### What follows from the invariant -/

/-- What the write port carries in a step is for a word outside the read-only segment (R54, R76). -/
theorem roLimit_le_of_ramWritePort {s : State} {a w : Nat} (h : ramWritePort s = some (a, w)) :
    roLimit s.cfg ≤ a := by
  unfold ramWritePort at h
  split at h
  · exact (storePort_eq_some h).2.2
  · cases h

/-- Settles O58: a word changes only by the write port, which carries no word of the read-only segment. -/
theorem readOnlySegmentNeverChanges : Obligations.ReadOnlySegmentNeverChanges := by
  intro s t a hhv hro h
  refine (memoryIsTheStoresInOrder.1 s t a h).2 fun w hp => ?_
  have hle : roLimit s.cfg ≤ a := roLimit_le_of_ramWritePort hp
  rw [roLimit_of_hv hhv] at hle
  omega

/-- A step that leaves the core running found it running and counted an instruction (R48, R51). -/
theorem running_and_counted_of_step {s t : State} (h : step s = .next t) (ht : t.status = .running) :
    s.status = .running ∧ t.steps = s.steps + 1 := by
  have hr : s.status = .running := by
    by_contra hne
    rcases (step_cases h).2 with ⟨-, rfl⟩ | ⟨hr, -⟩
    · exact hne ht
    · exact hne hr
  refine ⟨hr, ?_⟩
  rw [stepsCountsCompleted s t hr h, if_neg (by simp [ht])]

/-- Along a trace from a state of the invariant that has counted no instruction, every state has the invariant and one
that still runs has counted every step. -/
theorem IsTrace.inv_and_steps {s : State} {tr : Nat → State} {k : Nat} (h : IsTrace s tr k) (hinv : s.Inv)
    (h0 : s.steps = 0) : (tr k).Inv ∧ (tr k).cfg = s.cfg ∧ ((tr k).status = .running → (tr k).steps = k) := by
  induction k with
  | zero => rw [h.1]; exact ⟨hinv, rfl, fun _ => h0⟩
  | succ k ih =>
    obtain ⟨hk, hcfg, hsteps⟩ := ih h.of_succ
    have hstep : step (tr k) = .next (tr (k + 1)) := h.2 k k.lt_succ_self
    refine ⟨stepKeepsInvariant _ _ hk hstep, (step_cfg hstep).trans hcfg, fun hr => ?_⟩
    obtain ⟨hbefore, hcount⟩ := running_and_counted_of_step hstep hr
    rw [hcount, hsteps hbefore]

/-- Settles O59: the invariant bounds `STEPS` by the limit, and a run that still ran after `L + 1` steps would have
counted them all. -/
theorem stepLimitEndsTheRun : Obligations.StepLimitEndsTheRun := by
  refine ⟨fun s t l hinv hl h => ⟨?_, fun ht => (running_and_counted_of_step h ht).2⟩, fun c l tr hl htr => ?_⟩
  · exact (stepKeepsInvariant s t hinv h).withinLimit l (by rw [step_cfg h, hl])
  · have hstart : step (State.boot c) = .next (tr 1) := htr.1 ▸ htr.2 0 l.succ_pos
    obtain ⟨hinv, hcfg, hsteps⟩ := htr.inv_and_steps (boot_inv (step_cases hstart).1) rfl
    have hle : (tr (l + 1)).steps ≤ l := hinv.withinLimit l (by rw [hcfg]; exact hl)
    refine ⟨hle, fun hr => ?_⟩
    have := hsteps hr
    omega

/-! ### The result of a run -/

/-- The host's read of the whole memory of a stopped core, word by word (R54, R80). -/
theorem hostMemRead_all {s : State} (h : s.status ≠ .running) :
    ∃ m, hostMemRead s 0 s.cfg.memWords = some m ∧ m.length = s.cfg.memWords ∧
      ∀ a, a < s.cfg.memWords → m[a]? = some (s.readMem a) := by
  refine ⟨_, if_pos ⟨h, (Nat.zero_add _).le⟩, by simp, fun a ha => ?_⟩
  simp [ha]

/-- The result of a run that ended: how, and the registers, `STEPS` and memory as the core left them (R54). -/
theorem runResult_of_runEnd {s : State} {e : RunEnd} (h : s.status ≠ .running) (he : runEnd s = some e) :
    ∃ r, runResult s = some r ∧ r.ended = e ∧ r.registers = s.x ∧ r.stepCount = s.steps ∧
      r.memory.length = s.cfg.memWords ∧ ∀ a, a < s.cfg.memWords → r.memory[a]? = some (s.readMem a) := by
  obtain ⟨m, hm, hlen, hwords⟩ := hostMemRead_all h
  exact ⟨⟨e, s.x, m, s.steps⟩, by simp [runResult, he, hm], rfl, rfl, rfl, hlen, hwords⟩

/-- Settles O60: while the core runs there is no end; a halt has its code, and under the invariant a faulted core has a
cause. -/
theorem runResultReadsTheStop : Obligations.RunResultReadsTheStop := by
  refine fun s hinv => ⟨fun hr => ?_, fun hh => ?_, fun hf => ?_⟩
  · simp [runResult, runEnd, hr]
  · exact runResult_of_runEnd (by simp [hh]) (by simp [runEnd, hh])
  · obtain ⟨f, hcause⟩ := Option.ne_none_iff_exists'.1 (hinv.faultedCause hf).1
    have hend : runEnd s = some (.runtimeFault f) := by simp [runEnd, hf, hcause]
    obtain ⟨r, hr, hrest⟩ := runResult_of_runEnd (by simp [hf]) hend
    exact ⟨r, f, hr, hcause, hrest⟩

end Sys2Proof.Machine
end

section
/-! The statements about what no instruction reads (spec 10_state.md R37, R39; 20_memory.md R80): the flag, but for the
conditional jumps; pc as data; and data memory. All three follow from one lemma about an instruction that runs from a
state with another flag, another pc and other memory. -/

namespace Sys2Proof.Machine

open Sys2Proof

/-! ### A state with another flag, pc and memory -/

/-- `s` with flag `f`, index `p` in `pc`, and memory `m` over the initial contents `init`. -/
def State.altered (s : State) (f : Bool) (p : Nat) (m : Memory) (init : List (Nat × Nat)) : State :=
  { s with flag := f, pc := p, mem := m, cfg := { s.cfg with memInit := init } }

/-- From `s` with flag `f`, pc `p` and memory `m` over `init`, instruction `i` does what it does from `s` to `t`, but for
flag, pc and memory. Its flag is written alike or kept; its pc is as in `t` where the pc was as in `s` and so was the
flag, if `i` is a conditional jump; and its memory is as in `t` where memory was as in `s`. -/
structure RunsAlike (i : Instr) (s t : State) (f : Bool) (p : Nat) (m : Memory) (init : List (Nat × Nat))
    (f' : Bool) (p' : Nat) (m' : Memory) : Prop where
  runs : exec i (s.altered f p m init) = .next (t.altered f' p' m' init)
  flag : f' = t.flag ∨ f' = f ∧ t.flag = s.flag
  pc : p = s.pc → (f = s.flag ∨ (∀ b, i ≠ .cjmp b) ∧ ∀ b, i ≠ .cnjmp b) → p' = t.pc
  mem : m = s.mem → init = s.cfg.memInit → m' = t.mem

section
variable (s : State) (f : Bool) (p : Nat) (m : Memory) (init : List (Nat × Nat))

theorem State.altered_readReg (j : Nat) : (s.altered f p m init).readReg j = s.readReg j := rfl

theorem operandValue_altered (b : Operand) : operandValue (s.altered f p m init) b = operandValue s b := by
  cases b <;> rfl

theorem State.altered_tapeHead (t : Nat) : (s.altered f p m init).tapeHead t = s.tapeHead t := rfl

theorem State.altered_bumpCursor (t : Nat) :
    (s.altered f p m init).bumpCursor t = (s.bumpCursor t).altered f p m init := by
  unfold State.bumpCursor
  split <;> rfl

/-- The fetch and the decoder read the pc, but no flag and no memory. -/
theorem fetchDecode_altered : fetchDecode (s.altered f s.pc m init) = fetchDecode s := rfl

variable {s f p m init}

/-- An instruction that goes on from a changed `u`, in both runs, with the flag and the memory of each. -/
theorem runsAlike_advance {i : Instr} {u : State} {f' : Bool} {m' : Memory}
    (he : exec i (s.altered f p m init) = .next (u.altered f' p m' init).advance) (hpc : u.pc = s.pc)
    (hflag : f' = u.flag ∨ f' = f ∧ u.flag = s.flag) (hmem : m = s.mem → init = s.cfg.memInit → m' = u.mem) :
    RunsAlike i s u.advance f p m init f' ((p + 1) % 2 ^ u.cfg.W) m' where
  runs := he
  flag := hflag
  pc hp _ := by rw [hp, ← hpc]; rfl
  mem := hmem

/-- An instruction that writes back the same result and flag in both runs, from a `u` that may have moved a cursor. -/
theorem runsAlike_writeBack {i : Instr} {u : State} {rd v : Nat} {g : Bool}
    (he : exec i (s.altered f p m init) = writeBack (u.altered f p m init) rd v g) (hpc : u.pc = s.pc)
    (hmem : u.mem = s.mem) :
    RunsAlike i s ((u.writeReg rd v).setFlag g).advance f p m init g ((p + 1) % 2 ^ u.cfg.W) m :=
  runsAlike_advance (u := (u.writeReg rd v).setFlag g) he hpc (.inl rfl) fun hm _ => hm.trans hmem.symm

/-- An instruction that takes the same fault in both runs. -/
theorem runsAlike_enterFault {i : Instr} {e : Fault}
    (he : exec i (s.altered f p m init) = .next ((s.altered f p m init).enterFault e)) :
    RunsAlike i s (s.enterFault e) f p m init f p m where
  runs := he
  flag := .inr ⟨rfl, rfl⟩
  pc hp _ := hp
  mem hm _ := hm

/-- A jump whose two targets agree where flag and pc do. -/
theorem runsAlike_complete {i : Instr} {target target' : Nat}
    (he : exec i (s.altered f p m init) = .next ((s.altered f p m init).complete target'))
    (ht : p = s.pc → (f = s.flag ∨ (∀ b, i ≠ .cjmp b) ∧ ∀ b, i ≠ .cnjmp b) → target' = target) :
    RunsAlike i s (s.complete target) f p m init f target' m where
  runs := he
  flag := .inr ⟨rfl, rfl⟩
  pc := ht
  mem hm _ := hm

/-- A store: its two checks read no memory, and it writes the same word in both runs. -/
theorem runsAlike_storeWord {i : Instr} {t : State} {widx v : Nat}
    (he : exec i (s.altered f p m init) = storeWord (s.altered f p m init) widx v)
    (h : storeWord s widx v = .next t) : ∃ f' p' m', RunsAlike i s t f p m init f' p' m' := by
  rcases storeWord_cases s widx v with ⟨hout, hs⟩ | ⟨hin, hro, hs⟩ | ⟨hin, hrw, hs⟩ <;> rw [hs] at h <;> cases h
  · exact ⟨_, _, _, runsAlike_enterFault (he.trans (storeWord_of_memWords_le hout))⟩
  · exact ⟨_, _, _, runsAlike_enterFault (he.trans (storeWord_of_lt_roLimit hin hro))⟩
  · refine ⟨f, _, memWrite { s.cfg with memInit := init } m widx v,
      runsAlike_advance (u := s.writeMem widx v) (he.trans (storeWord_of_writable hin hrw)) rfl (.inr ⟨rfl, rfl⟩) ?_⟩
    rintro rfl rfl
    rfl

/-- Every instruction runs alike from a state with another flag, pc and memory. -/
theorem exec_runsAlike {i : Instr} {t : State} (h : exec i s = .next t) :
    ∃ f' p' m', RunsAlike i s t f p m init f' p' m' := by
  cases i with
  | and | or | xor | not | add | sub | mull | umulh | shl | shr =>
    cases h
    exact ⟨_, _, _, runsAlike_writeBack rfl rfl rfl⟩
  | mov rd src =>
    cases h
    refine ⟨f, _, m, runsAlike_advance (u := s.writeReg rd (operandValue s src)) rfl rfl ?_ fun hm _ => hm⟩
    exact .inr ⟨rfl, rfl⟩
  | cmpe ra src | cmpa ra src | cmpae ra src =>
    cases h
    exact ⟨_, _, m, runsAlike_advance (u := s.setFlag _) rfl rfl (.inl rfl) fun hm _ => hm⟩
  | umod rd ra src =>
    by_cases hzero : operandValue s src = 0
    · rw [exec_umod_of_divisor_zero rd ra hzero] at h
      cases h
      exact ⟨_, _, _, runsAlike_enterFault (exec_umod_of_divisor_zero rd ra hzero)⟩
    · rw [exec_umod_of_divisor_ne_zero rd ra hzero] at h
      cases h
      exact ⟨_, _, _, runsAlike_writeBack (exec_umod_of_divisor_ne_zero rd ra hzero) rfl rfl⟩
  | jmp b => cases h; exact ⟨_, _, _, runsAlike_complete rfl fun _ _ => rfl⟩
  | cjmp b =>
    cases h
    refine ⟨_, _, _, runsAlike_complete rfl fun hp hread => ?_⟩
    have hf : f = s.flag := hread.resolve_right fun hother => hother.1 b rfl
    subst hp hf
    rfl
  | cnjmp b =>
    cases h
    refine ⟨_, _, _, runsAlike_complete rfl fun hp hread => ?_⟩
    have hf : f = s.flag := hread.resolve_right fun hother => hother.2 b rfl
    subst hp hf
    rfl
  | store dest rs => exact runsAlike_storeWord rfl h
  | storeW dest rs =>
    by_cases haligned : byteOffsetAligned s.cfg (operandValue s dest) = true
    · rw [exec_storeW_of_aligned rs haligned] at h
      exact runsAlike_storeWord (exec_storeW_of_aligned rs haligned) h
    · rw [exec_storeW_of_not_aligned rs haligned] at h
      cases h
      exact ⟨_, _, _, runsAlike_enterFault (exec_storeW_of_not_aligned rs haligned)⟩
  | read rd src =>
    cases hw : s.tapeHead (operandValue s src) with
    | none =>
      rw [exec_read_of_tapeHead_none rfl hw] at h
      cases h
      exact ⟨_, _, _, runsAlike_writeBack (exec_read_of_tapeHead_none rfl hw) rfl rfl⟩
    | some w =>
      rw [exec_read_of_tapeHead_some rfl hw] at h
      cases h
      refine ⟨_, _, _, runsAlike_writeBack ?_ (State.bumpCursor_pc s _) (State.bumpCursor_mem s _)⟩
      rw [← State.altered_bumpCursor]
      exact exec_read_of_tapeHead_some rfl hw
  | answer code =>
    cases h
    exact ⟨f, p, m, rfl, .inr ⟨rfl, rfl⟩, fun hp _ => hp, fun hm _ => hm⟩

end

/-! ### The obligations -/

/-- No instruction changes the parameters (R31). -/
theorem exec_cfg {i : Instr} {s t : State} (h : exec i s = .next t) : t.cfg = s.cfg := by
  rcases exec_cases h with hc | ⟨f, rfl⟩ | ⟨code, -, rfl⟩
  · exact hc.cfg
  · rfl
  · rfl

/-- A different flag and pc before an instruction change nothing after it but the flag and pc. -/
theorem exec_with_flag_pc {i : Instr} {s t : State} (f : Bool) (p : Nat) (h : exec i s = .next t) :
    ∃ f' p', exec i { s with flag := f, pc := p } = .next { t with flag := f', pc := p' } ∧
      (f' = t.flag ∨ f' = f ∧ t.flag = s.flag) ∧
      (p = s.pc → (f = s.flag ∨ (∀ b, i ≠ .cjmp b) ∧ ∀ b, i ≠ .cnjmp b) → p' = t.pc) := by
  obtain ⟨f', p', m', halike⟩ := exec_runsAlike (f := f) (p := p) (m := s.mem) (init := s.cfg.memInit) h
  refine ⟨f', p', halike.runs.trans ?_, halike.flag, halike.pc⟩
  rw [halike.mem rfl rfl, ← exec_cfg h]
  rfl

/-- Settles O53: with the same pc before, an instruction that is no conditional jump leaves the same pc. -/
theorem onlyConditionalJumpsReadFlag : Obligations.OnlyConditionalJumpsReadFlag := by
  intro i s t f hcjmp hcnjmp h
  obtain ⟨f', p', hruns, hflag, hpc⟩ := exec_with_flag_pc f s.pc h
  rw [hpc rfl (.inr ⟨hcjmp, hcnjmp⟩)] at hruns
  exact ⟨f', hruns, hflag⟩

/-- Settles O54: with the same flag before, every instruction leaves the same flag. -/
theorem noInstructionReadsPc : Obligations.NoInstructionReadsPc := by
  intro i s t p h
  obtain ⟨f', p', hruns, hflag, -⟩ := exec_with_flag_pc s.flag p h
  have hsame : f' = t.flag := hflag.elim id fun ⟨hf, ht⟩ => hf.trans ht.symm
  rw [hsame] at hruns
  exact ⟨p', hruns⟩

/-- Settles O55: the fetch and the decoder see no memory, and with the same flag and pc before every instruction leaves
the same flag and pc. -/
theorem dataMemoryIsNeverRead : Obligations.DataMemoryIsNeverRead := by
  intro s t m init hc' h
  obtain ⟨hc, ⟨hr, rfl⟩ | ⟨hr, ⟨e, hf, rfl⟩ | ⟨i, hi, he⟩⟩⟩ := step_cases h
  · exact ⟨m, step_of_stopped hc' hr⟩
  · exact ⟨m, step_of_fetchDecode_error hc' hr ((fetchDecode_altered s s.flag m init).trans hf)⟩
  · have hi' : fetchDecode (s.altered s.flag s.pc m init) = .ok i := (fetchDecode_altered s s.flag m init).trans hi
    obtain ⟨f', p', m', halike⟩ := exec_runsAlike (f := s.flag) (p := s.pc) (m := m) (init := init) he
    have hflag : f' = t.flag := halike.flag.elim id fun ⟨hkept, ht⟩ => hkept.trans ht.symm
    have hpc : p' = t.pc := halike.pc rfl (.inl rfl)
    have hstep : step (s.altered s.flag s.pc m init) = .next (t.altered f' p' m' init) :=
      (step_of_fetchDecode (s := s.altered s.flag s.pc m init) hc' hr hi').trans halike.runs
    rw [hflag, hpc] at hstep
    exact ⟨m', hstep⟩

end Sys2Proof.Machine
end
